-- ==== Sys2Proof/Word.lean ====
section
/-! DEFINITION. The widths of the machine's values (spec 00_scope.md R7, R9): every value is unsigned. -/

namespace Sys2Proof

/-- A byte of memory, a general register, a timer. -/
abbrev Byte := BitVec 8

/-- An instruction word, and the width of `I`. -/
abbrev Word := BitVec 16

/-- An address: `PC` and the stack entries (R7: 12 bits). -/
abbrev Addr := BitVec 12

/-- The index of a general register, 0 to 15 (R20). -/
abbrev Reg := Fin 16

/-- A 4-bit operand: the sprite height (R82, field `N`). -/
abbrev Nibble := BitVec 4

end Sys2Proof
end

