-- ==== Sys2Proof/Syntax.lean ====
section
/-! DEFINITION. The instructions: one constructor per row of the opcode table (30_encoding.md R90), each carrying
exactly the operand fields of its format (R87, R88). The names of the rows as data (`Op`), and each row's operand
shape (`Op.shape`, R83 to R86), which the decoder, the encoder and the assembly notation share. -/

namespace Sys2Proof

/-- A decoded instruction. `Return` is `ret` here (`return` is a word of Lean). -/
inductive Instr where
  | clearScreen
  | ret
  | jump (nnn : Addr)
  | callNNN (nnn : Addr)
  | skipEqXNN (x : Reg) (nn : Byte)
  | skipNeXNN (x : Reg) (nn : Byte)
  | skipEqXY (x y : Reg)
  | storeXNN (x : Reg) (nn : Byte)
  | addXNN (x : Reg) (nn : Byte)
  | storeXY (x y : Reg)
  | or (x y : Reg)
  | and (x y : Reg)
  | xor (x y : Reg)
  | addXY (x y : Reg)
  | sub (x y : Reg)
  | shr (x y : Reg)
  | subReverse (x y : Reg)
  | shl (x y : Reg)
  | skipNeXY (x y : Reg)
  | storeINNN (nnn : Addr)
  | jumpV0 (nnn : Addr)
  | random (x : Reg) (nn : Byte)
  | drawXYN (x y : Reg) (n : Nibble)
  | skipPressedX (x : Reg)
  | skipNotPressedX (x : Reg)
  | readDelayX (x : Reg)
  | waitKeyX (x : Reg)
  | setDelayX (x : Reg)
  | setSoundX (x : Reg)
  | addIX (x : Reg)
  | storeSpriteX (x : Reg)
  | storeDecimal (x : Reg)
  | writeToMemory (x : Reg)
  | readFromMemory (x : Reg)
  deriving DecidableEq, Repr

/-- The names of the opcode table's rows, in the table's order. -/
inductive Op where
  | clearScreen | ret | jump | callNNN | skipEqXNN | skipNeXNN | skipEqXY | storeXNN | addXNN | storeXY
  | or | and | xor | addXY | sub | shr | subReverse | shl | skipNeXY | storeINNN | jumpV0 | random | drawXYN
  | skipPressedX | skipNotPressedX | readDelayX | waitKeyX | setDelayX | setSoundX | addIX | storeSpriteX
  | storeDecimal | writeToMemory | readFromMemory
  deriving DecidableEq, Repr

/-- Every row's name, in the table's order. -/
def Op.all : List Op :=
  [.clearScreen, .ret, .jump, .callNNN, .skipEqXNN, .skipNeXNN, .skipEqXY, .storeXNN, .addXNN, .storeXY] ++
  [.or, .and, .xor, .addXY, .sub, .shr, .subReverse, .shl, .skipNeXY, .storeINNN, .jumpV0, .random, .drawXYN] ++
  [.skipPressedX, .skipNotPressedX, .readDelayX, .waitKeyX, .setDelayX, .setSoundX, .addIX, .storeSpriteX] ++
  [.storeDecimal, .writeToMemory, .readFromMemory]

/-- A format (R83 to R86) with the constructor its operands go to. -/
inductive Shape where
  /-- Z: no operand. -/
  | formZ (i : Instr)
  /-- A: an address. -/
  | formA (mk : Addr → Instr)
  /-- XI: a register and an immediate byte. -/
  | formXI (mk : Reg → Byte → Instr)
  /-- X: a register. -/
  | formX (mk : Reg → Instr)
  /-- XY: two registers. -/
  | formXY (mk : Reg → Reg → Instr)
  /-- XYN: two registers and a nibble. -/
  | formXYN (mk : Reg → Reg → Nibble → Instr)

/-- The format of each row (R90, column "format"). -/
def Op.shape : Op → Shape
  | .clearScreen => .formZ .clearScreen
  | .ret => .formZ .ret
  | .jump => .formA .jump
  | .callNNN => .formA .callNNN
  | .skipEqXNN => .formXI .skipEqXNN
  | .skipNeXNN => .formXI .skipNeXNN
  | .skipEqXY => .formXY .skipEqXY
  | .storeXNN => .formXI .storeXNN
  | .addXNN => .formXI .addXNN
  | .storeXY => .formXY .storeXY
  | .or => .formXY .or
  | .and => .formXY .and
  | .xor => .formXY .xor
  | .addXY => .formXY .addXY
  | .sub => .formXY .sub
  | .shr => .formXY .shr
  | .subReverse => .formXY .subReverse
  | .shl => .formXY .shl
  | .skipNeXY => .formXY .skipNeXY
  | .storeINNN => .formA .storeINNN
  | .jumpV0 => .formA .jumpV0
  | .random => .formXI .random
  | .drawXYN => .formXYN .drawXYN
  | .skipPressedX => .formX .skipPressedX
  | .skipNotPressedX => .formX .skipNotPressedX
  | .readDelayX => .formX .readDelayX
  | .waitKeyX => .formX .waitKeyX
  | .setDelayX => .formX .setDelayX
  | .setSoundX => .formX .setSoundX
  | .addIX => .formX .addIX
  | .storeSpriteX => .formX .storeSpriteX
  | .storeDecimal => .formX .storeDecimal
  | .writeToMemory => .formX .writeToMemory
  | .readFromMemory => .formX .readFromMemory

/-- The row an instruction belongs to. -/
def Instr.op : Instr → Op
  | .clearScreen => .clearScreen
  | .ret => .ret
  | .jump _ => .jump
  | .callNNN _ => .callNNN
  | .skipEqXNN _ _ => .skipEqXNN
  | .skipNeXNN _ _ => .skipNeXNN
  | .skipEqXY _ _ => .skipEqXY
  | .storeXNN _ _ => .storeXNN
  | .addXNN _ _ => .addXNN
  | .storeXY _ _ => .storeXY
  | .or _ _ => .or
  | .and _ _ => .and
  | .xor _ _ => .xor
  | .addXY _ _ => .addXY
  | .sub _ _ => .sub
  | .shr _ _ => .shr
  | .subReverse _ _ => .subReverse
  | .shl _ _ => .shl
  | .skipNeXY _ _ => .skipNeXY
  | .storeINNN _ => .storeINNN
  | .jumpV0 _ => .jumpV0
  | .random _ _ => .random
  | .drawXYN _ _ _ => .drawXYN
  | .skipPressedX _ => .skipPressedX
  | .skipNotPressedX _ => .skipNotPressedX
  | .readDelayX _ => .readDelayX
  | .waitKeyX _ => .waitKeyX
  | .setDelayX _ => .setDelayX
  | .setSoundX _ => .setSoundX
  | .addIX _ => .addIX
  | .storeSpriteX _ => .storeSpriteX
  | .storeDecimal _ => .storeDecimal
  | .writeToMemory _ => .writeToMemory
  | .readFromMemory _ => .readFromMemory

/-- The operands of an instruction as numbers, in field order (R100). -/
def Instr.operands : Instr → List Nat
  | .clearScreen | .ret => []
  | .jump nnn | .callNNN nnn | .storeINNN nnn | .jumpV0 nnn => [nnn.toNat]
  | .skipEqXNN x nn | .skipNeXNN x nn | .storeXNN x nn | .addXNN x nn | .random x nn => [x.val, nn.toNat]
  | .skipEqXY x y | .skipNeXY x y | .storeXY x y | .or x y | .and x y | .xor x y | .addXY x y | .sub x y
  | .shr x y | .subReverse x y | .shl x y => [x.val, y.val]
  | .drawXYN x y n => [x.val, y.val, n.toNat]
  | .skipPressedX x | .skipNotPressedX x | .readDelayX x | .waitKeyX x | .setDelayX x | .setSoundX x | .addIX x
  | .storeSpriteX x | .storeDecimal x | .writeToMemory x | .readFromMemory x => [x.val]

end Sys2Proof
end

