-- ==== Sys2Proof/WellFormed.lean ====
section
/-! DEFINITION. Well-formed instructions. An `Instr` holds its operands in their own widths, so none of its fields can
be out of range (30_encoding.md R89: "the only ones that can be constructed"). What can be ill-formed is an instruction
WRITTEN in the spec's notation (R100), a name with a list of numbers: `Raw.check` reads it as an instruction or rejects
it by name, and `Raw.wellFormed` says which are read. -/

namespace Sys2Proof

/-- An instruction as it is written (R100): `Name{a,b,...}` with the operands as numbers. -/
structure Raw where
  op : Op
  operands : List Nat
  deriving DecidableEq, Repr

/-- Why a written instruction is not well-formed. -/
inductive IllFormed where
  /-- Not as many operands as the format has (R100). -/
  | operandCount
  /-- A register index above 15 (R20, R82). -/
  | registerIndex
  /-- An immediate above 255 (R82). -/
  | immediate
  /-- An address above 0xFFF (R50). -/
  | address
  /-- A nibble above 15 (R82). -/
  | nibble
  deriving DecidableEq, Repr

/-- A register index in range. -/
def checkReg (n : Nat) : Except IllFormed Reg :=
  if h : n < 16 then .ok ⟨n, h⟩ else .error .registerIndex

/-- An immediate byte in range. -/
def checkByte (n : Nat) : Except IllFormed Byte :=
  if n < 256 then .ok (BitVec.ofNat 8 n) else .error .immediate

/-- An address in range. -/
def checkAddr (n : Nat) : Except IllFormed Addr :=
  if n < 4096 then .ok (BitVec.ofNat 12 n) else .error .address

/-- A nibble in range. -/
def checkNibble (n : Nat) : Except IllFormed Nibble :=
  if n < 16 then .ok (BitVec.ofNat 4 n) else .error .nibble

/-- The instruction a shape makes of a list of numbers, each checked against its field (R100, R82). -/
def Shape.check : Shape → List Nat → Except IllFormed Instr
  | .formZ i, [] => .ok i
  | .formA mk, [nnn] => (checkAddr nnn).map mk
  | .formXI mk, [x, nn] => (checkReg x).bind fun x => (checkByte nn).map (mk x)
  | .formX mk, [x] => (checkReg x).map mk
  | .formXY mk, [x, y] => (checkReg x).bind fun x => (checkReg y).map (mk x)
  | .formXYN mk, [x, y, n] => (checkReg x).bind fun x => (checkReg y).bind fun y => (checkNibble n).map (mk x y)
  | _, _ => .error .operandCount

/-- Read a written instruction. -/
def Raw.check (r : Raw) : Except IllFormed Instr := r.op.shape.check r.operands

/-- A written instruction is well-formed when it is read as an instruction. -/
def Raw.wellFormed (r : Raw) : Bool :=
  match r.check with
  | .ok _ => true
  | .error _ => false

/-- An instruction, written. -/
def Instr.toRaw (i : Instr) : Raw := { op := i.op, operands := i.operands }

/-- An instruction is well-formed when what is written of it is: true of every `Instr`, by its types. -/
def Instr.wellFormed (i : Instr) : Bool := i.toRaw.wellFormed

end Sys2Proof
end

