-- ==== Sys2Proof/Decode.lean ====
section
/-! DEFINITION. The codec (30_encoding.md): the opcode table as ONE replaceable table (R90), decode and encode from it
(R92, R89), and decode as the spec also writes it, family by family (R92). The bit patterns are the spec's own
[from general knowledge, not in source]: log 10. -/

namespace Sys2Proof

/-- A row of the opcode table: a word `w` selects it iff `w & mask = pattern` (R90). -/
structure Row where
  mask : Word
  pattern : Word
  deriving DecidableEq, Repr

/-- The opcode table (R90), column for column. -/
def Op.row : Op → Row
  | .clearScreen => ⟨0xFFFF, 0x00E0⟩
  | .ret => ⟨0xFFFF, 0x00EE⟩
  | .jump => ⟨0xF000, 0x1000⟩
  | .callNNN => ⟨0xF000, 0x2000⟩
  | .skipEqXNN => ⟨0xF000, 0x3000⟩
  | .skipNeXNN => ⟨0xF000, 0x4000⟩
  | .skipEqXY => ⟨0xF00F, 0x5000⟩
  | .storeXNN => ⟨0xF000, 0x6000⟩
  | .addXNN => ⟨0xF000, 0x7000⟩
  | .storeXY => ⟨0xF00F, 0x8000⟩
  | .or => ⟨0xF00F, 0x8001⟩
  | .and => ⟨0xF00F, 0x8002⟩
  | .xor => ⟨0xF00F, 0x8003⟩
  | .addXY => ⟨0xF00F, 0x8004⟩
  | .sub => ⟨0xF00F, 0x8005⟩
  | .shr => ⟨0xF00F, 0x8006⟩
  | .subReverse => ⟨0xF00F, 0x8007⟩
  | .shl => ⟨0xF00F, 0x800E⟩
  | .skipNeXY => ⟨0xF00F, 0x9000⟩
  | .storeINNN => ⟨0xF000, 0xA000⟩
  | .jumpV0 => ⟨0xF000, 0xB000⟩
  | .random => ⟨0xF000, 0xC000⟩
  | .drawXYN => ⟨0xF000, 0xD000⟩
  | .skipPressedX => ⟨0xF0FF, 0xE09E⟩
  | .skipNotPressedX => ⟨0xF0FF, 0xE0A1⟩
  | .readDelayX => ⟨0xF0FF, 0xF007⟩
  | .waitKeyX => ⟨0xF0FF, 0xF00A⟩
  | .setDelayX => ⟨0xF0FF, 0xF015⟩
  | .setSoundX => ⟨0xF0FF, 0xF018⟩
  | .addIX => ⟨0xF0FF, 0xF01E⟩
  | .storeSpriteX => ⟨0xF0FF, 0xF029⟩
  | .storeDecimal => ⟨0xF0FF, 0xF033⟩
  | .writeToMemory => ⟨0xF0FF, 0xF055⟩
  | .readFromMemory => ⟨0xF0FF, 0xF065⟩

/-- Whether a word selects a row (R90). -/
def Row.selects (r : Row) (w : Word) : Bool := w &&& r.mask == r.pattern

/-- `w[lo + width - 1 : lo]`, an unsigned value (R9). -/
def bitsOf (w : Word) (lo width : Nat) : Nat := w.toNat / 2 ^ lo % 2 ^ width

/-- Field `F`, the opcode family: `w[15:12]` (R81, R82). -/
def fieldF (w : Word) : Nat := bitsOf w 12 4

/-- Field `X`: `w[11:8]` (R87). -/
def fieldX (w : Word) : Reg := Fin.ofNat 16 (bitsOf w 8 4)

/-- Field `Y`: `w[7:4]` (R87). -/
def fieldY (w : Word) : Reg := Fin.ofNat 16 (bitsOf w 4 4)

/-- Field `N`: `w[3:0]` (R87). -/
def fieldN (w : Word) : Nibble := BitVec.ofNat 4 (bitsOf w 0 4)

/-- Field `NN`: `w[7:0]` (R87). -/
def fieldNN (w : Word) : Byte := BitVec.ofNat 8 (bitsOf w 0 8)

/-- Field `NNN`: `w[11:0]` (R87). -/
def fieldNNN (w : Word) : Addr := BitVec.ofNat 12 (bitsOf w 0 12)

/-- The instruction a shape makes of the fields of a word (R83 to R87). -/
def Shape.build (w : Word) : Shape → Instr
  | .formZ i => i
  | .formA mk => mk (fieldNNN w)
  | .formXI mk => mk (fieldX w) (fieldNN w)
  | .formX mk => mk (fieldX w)
  | .formXY mk => mk (fieldX w) (fieldY w)
  | .formXYN mk => mk (fieldX w) (fieldY w) (fieldN w)

/-- Why bytes are not an instruction. -/
inductive DecodeError where
  /-- No row of the table matches (R92): carries the raw word. -/
  | unsupportedInstruction (w : Word)
  /-- Input not exactly 2 bytes (R80): a defect of the caller, which the fetch cannot cause. -/
  | notTwoBytes (n : Nat)
  deriving DecidableEq, Repr

/-- Decode a word by the table (R90, R92): total on all 65536 words. -/
def decode (w : Word) : Except DecodeError Instr :=
  match Op.all.find? fun o => o.row.selects w with
  | some o => .ok (o.shape.build w)
  | none => .error (.unsupportedInstruction w)

/-- The word of two bytes, the one at the lower address first: big-endian (20_memory.md R55). -/
def wordOfBytes (b0 b1 : Byte) : Word := BitVec.ofNat 16 (b0.toNat * 256 + b1.toNat)

/-- The two bytes of a word, in the order they stand in memory (R55). -/
def bytesOfWord (w : Word) : Byte × Byte := (BitVec.ofNat 8 (w.toNat / 256), BitVec.ofNat 8 w.toNat)

/-- Decode a list of bytes (R80): exactly two make a word. -/
def decodeBytes : List Byte → Except DecodeError Instr
  | [b0, b1] => decode (wordOfBytes b0 b1)
  | bs => .error (.notTwoBytes bs.length)

/-- Decode written family by family, as R92 writes it. -/
def decodeByFamily (w : Word) : Except DecodeError Instr :=
  let x := fieldX w
  let y := fieldY w
  let n := fieldN w
  let nn := fieldNN w
  let nnn := fieldNNN w
  let bad : Except DecodeError Instr := .error (.unsupportedInstruction w)
  match fieldF w with
  | 0x0 => if w = 0x00E0 then .ok .clearScreen else if w = 0x00EE then .ok .ret else bad
  | 0x1 => .ok (.jump nnn)
  | 0x2 => .ok (.callNNN nnn)
  | 0x3 => .ok (.skipEqXNN x nn)
  | 0x4 => .ok (.skipNeXNN x nn)
  | 0x5 => if n.toNat = 0 then .ok (.skipEqXY x y) else bad
  | 0x6 => .ok (.storeXNN x nn)
  | 0x7 => .ok (.addXNN x nn)
  | 0x8 =>
    match n.toNat with
    | 0x0 => .ok (.storeXY x y)
    | 0x1 => .ok (.or x y)
    | 0x2 => .ok (.and x y)
    | 0x3 => .ok (.xor x y)
    | 0x4 => .ok (.addXY x y)
    | 0x5 => .ok (.sub x y)
    | 0x6 => .ok (.shr x y)
    | 0x7 => .ok (.subReverse x y)
    | 0xE => .ok (.shl x y)
    | _ => bad
  | 0x9 => if n.toNat = 0 then .ok (.skipNeXY x y) else bad
  | 0xA => .ok (.storeINNN nnn)
  | 0xB => .ok (.jumpV0 nnn)
  | 0xC => .ok (.random x nn)
  | 0xD => .ok (.drawXYN x y n)
  | 0xE =>
    match nn.toNat with
    | 0x9E => .ok (.skipPressedX x)
    | 0xA1 => .ok (.skipNotPressedX x)
    | _ => bad
  | 0xF =>
    match nn.toNat with
    | 0x07 => .ok (.readDelayX x)
    | 0x0A => .ok (.waitKeyX x)
    | 0x15 => .ok (.setDelayX x)
    | 0x18 => .ok (.setSoundX x)
    | 0x1E => .ok (.addIX x)
    | 0x29 => .ok (.storeSpriteX x)
    | 0x33 => .ok (.storeDecimal x)
    | 0x55 => .ok (.writeToMemory x)
    | 0x65 => .ok (.readFromMemory x)
    | _ => bad
  | _ => bad

/-- The codec's packing of four nibbles (R89): each input's low 4 bits, the first highest. -/
def pack4 (a b c d : Nat) : Word :=
  BitVec.ofNat 16 (a % 16 * 4096 + b % 16 * 256 + c % 16 * 16 + d % 16)

/-- The codec's packing of a nibble and an address (R89): the low 4 and the low 12 bits. -/
def pack12 (a nnn : Nat) : Word := BitVec.ofNat 16 (a % 16 * 4096 + nnn % 4096)

/-- Nibble `k` of a row's pattern (R81). -/
def Op.nibble (o : Op) (k : Nat) : Nat := bitsOf o.row.pattern (4 * k) 4

/-- Format A (R84). -/
def packA (o : Op) (nnn : Addr) : Word := pack12 (o.nibble 3) nnn.toNat

/-- Format XI (R85). -/
def packXI (o : Op) (x : Reg) (nn : Byte) : Word := pack4 (o.nibble 3) x.val (nn.toNat / 16) nn.toNat

/-- Format X (R85): the low byte is the pattern's. -/
def packX (o : Op) (x : Reg) : Word := pack4 (o.nibble 3) x.val (o.nibble 1) (o.nibble 0)

/-- Format XY (R86): the low nibble is the pattern's. -/
def packXY (o : Op) (x y : Reg) : Word := pack4 (o.nibble 3) x.val y.val (o.nibble 0)

/-- Format XYN (R86). -/
def packXYN (o : Op) (x y : Reg) (n : Nibble) : Word := pack4 (o.nibble 3) x.val y.val n.toNat

/-- Encode (R89): the family and the fixed bits from the table's row, the fields from the instruction. -/
def encode : Instr → Word
  | .clearScreen => Op.clearScreen.row.pattern
  | .ret => Op.ret.row.pattern
  | .jump nnn => packA .jump nnn
  | .callNNN nnn => packA .callNNN nnn
  | .skipEqXNN x nn => packXI .skipEqXNN x nn
  | .skipNeXNN x nn => packXI .skipNeXNN x nn
  | .skipEqXY x y => packXY .skipEqXY x y
  | .storeXNN x nn => packXI .storeXNN x nn
  | .addXNN x nn => packXI .addXNN x nn
  | .storeXY x y => packXY .storeXY x y
  | .or x y => packXY .or x y
  | .and x y => packXY .and x y
  | .xor x y => packXY .xor x y
  | .addXY x y => packXY .addXY x y
  | .sub x y => packXY .sub x y
  | .shr x y => packXY .shr x y
  | .subReverse x y => packXY .subReverse x y
  | .shl x y => packXY .shl x y
  | .skipNeXY x y => packXY .skipNeXY x y
  | .storeINNN nnn => packA .storeINNN nnn
  | .jumpV0 nnn => packA .jumpV0 nnn
  | .random x nn => packXI .random x nn
  | .drawXYN x y n => packXYN .drawXYN x y n
  | .skipPressedX x => packX .skipPressedX x
  | .skipNotPressedX x => packX .skipNotPressedX x
  | .readDelayX x => packX .readDelayX x
  | .waitKeyX x => packX .waitKeyX x
  | .setDelayX x => packX .setDelayX x
  | .setSoundX x => packX .setSoundX x
  | .addIX x => packX .addIX x
  | .storeSpriteX x => packX .storeSpriteX x
  | .storeDecimal x => packX .storeDecimal x
  | .writeToMemory x => packX .writeToMemory x
  | .readFromMemory x => packX .readFromMemory x

/-- The two bytes of an instruction as they stand in memory (R55, R89). -/
def encodeBytes (i : Instr) : List Byte :=
  let (b0, b1) := bytesOfWord (encode i)
  [b0, b1]

/-- The word numbered as the opcode table numbers it, as the bytes the hardware stores (R55): the bits above `nbits`
are 0. -/
def tableBytes (nbits w : Nat) : Byte × Byte := bytesOfWord (BitVec.ofNat 16 (w % 2 ^ nbits))

/-- The instruction the decoder reads from a table word, laid out as the hardware stores it. -/
def decodeTableWord (nbits w : Nat) : Option Instr :=
  let (b0, b1) := tableBytes nbits w
  match decodeBytes [b0, b1] with
  | .ok i => some i
  | .error _ => none

end Sys2Proof
end

