-- ==== Sys2Proof/Config.lean ====
section
/-! DEFINITION. What is fixed outside the machine's program: the settings (00_scope.md R4, R5), the forms of the
port answers (R11), and the free values, the answers of the outside world that no rule constrains (R40, R181, U22).
Each free value is opaque: nothing can be proved of it. -/

namespace Sys2Proof

/-- `SHIFT_MODE` (R4, R171): which register supplies the operand of the shifts. -/
inductive ShiftMode where
  | oneRegister
  | twoRegister
  deriving DecidableEq, Repr

/-- `MEMORY_MODE` (R4, R206): whether the bulk transfers advance `I`. -/
inductive MemoryMode where
  | advance
  | noAdvance
  deriving DecidableEq, Repr

/-- `UNSUPPORTED_POLICY` (R4, R117): what a word that does not decode does. -/
inductive UnsupportedPolicy where
  | skip
  | halt
  deriving DecidableEq, Repr

/-- `PACING` (R4, R114): a delay in each step, of no architectural effect. -/
inductive Pacing where
  | unlimited
  | fixedDelay (d : Nat)
  deriving DecidableEq, Repr

/-- `TIMER_MODE` (R5, R249, R250): which sequencer decides when a decay tick is due. -/
inductive TimerMode where
  | instructionCount
  | wallClock
  deriving DecidableEq, Repr

/-- `STACK_POLICY` (R5, R131, R132): what a call at `SP = 15` and a return at `SP = 0` do. -/
inductive StackPolicy where
  | wrap
  | fault
  deriving DecidableEq, Repr

/-- The six settings (R34): arguments of reset, no default, never changed while the machine runs. -/
structure Settings where
  shiftMode : ShiftMode
  memoryMode : MemoryMode
  unsupportedPolicy : UnsupportedPolicy
  pacing : Pacing
  timerMode : TimerMode
  stackPolicy : StackPolicy
  deriving DecidableEq, Repr

/-- The answer of a port operation that may fail (R11): `Ok(a)` or `Err`. -/
inductive Reply (α : Type) where
  | ok (a : α)
  | err
  deriving DecidableEq, Repr, Inhabited

/-- The state of the 16 logical keys (R40): pressed or not. -/
abbrev KeyState := Vector Bool 16

/-- What comes between the core and the key state when `is_key_pressed` is called (R40, R216): the keys stand as they
were, or the input context has rewritten them since, or the device fails. -/
inductive KeyScan where
  | unchanged
  | changed (keys : KeyState)
  | err
  deriving DecidableEq, Repr, Inhabited

/-- What the port has for a `block_for_key` (R41, R212): no answer yet, the answer of a key (0 to 15 by the port's
contract), or a failure. -/
inductive KeyWait where
  | waiting
  | key (k : Fin 16)
  | err
  deriving DecidableEq, Repr, Inhabited

/-- The sixteen 5-byte digit sprites (R33), digit by digit. -/
abbrev Font := Vector (Vector Byte 5) 16

/-- FREE VALUE (log 3): the byte a live random source answers to its call number `n` (R181). -/
opaque Config.randomByte : Nat → Byte

/-- FREE VALUE (log 3): what a live display answers to its `clear` number `n` (R190). -/
opaque Config.clearReply : Nat → Reply Unit

/-- FREE VALUE (log 3): what a live display answers to its `draw` number `n` (R190). -/
opaque Config.drawReply : Nat → Reply Bool

/-- FREE VALUE (log 3): what the input context has done to the keys before key query number `n` (R40, R216). -/
opaque Config.keyScan : Nat → KeyScan

/-- FREE VALUE (log 3): what the port has at once for the `block_for_key` number `n` (R212). -/
opaque Config.keyWait : Nat → KeyWait

/-- FREE VALUE (log 3): the answer of `Time.now_us` to its call number `n` (R250, R257). -/
opaque Config.nowUs : Nat → Nat

/-- FREE VALUE (log 22): what a failed read of the ROM source has left in the program region (R288, U23). -/
opaque Config.romRemnant : List Byte

end Sys2Proof
end

