-- ==== Sys2Proof/Machine/Devices.lean ====
section
/-! DEFINITION. The devices behind the core's ports (60_exceptions.md R255), as far as the core depends on them
(10_state.md R39 to R42): the reference display (46_draw.md R195) and the reference random device (45_random.md R182),
made exact by the spec, and live devices, whose answers are free values (R40, R181, R190, R257). -/

namespace Sys2Proof.Machine

/-- The answers of a live port (MODEL'S OWN, log 3): those the outside world has lined up, oldest first, and how many
have been taken. When none is lined up, the answer is a free value, applied to the number taken. -/
structure Feed (α : Type) where
  script : List α
  taken : Nat
  deriving DecidableEq, Repr

/-- A feed with nothing lined up. -/
def Feed.empty (α : Type) : Feed α := { script := [], taken := 0 }

/-- Take the next answer. -/
def Feed.take {α : Type} (free : Nat → α) (f : Feed α) : α × Feed α :=
  match f.script with
  | [] => (free f.taken, { f with taken := f.taken + 1 })
  | a :: rest => (a, { script := rest, taken := f.taken + 1 })

/-! ### The display (R190, R195) -/

/-- The reference display (R195): `DISPLAY_W`, `DISPLAY_H` and the pixels, row by row. -/
structure RefDisplay where
  width : Nat
  height : Nat
  pix : List (List Bool)
  deriving DecidableEq, Repr

/-- All pixels off. -/
def RefDisplay.blank (width height : Nat) : RefDisplay :=
  { width := width, height := height, pix := List.replicate height (List.replicate width false) }

/-- `PIX[row][col]`; a pixel the display does not have reads as off. -/
def RefDisplay.pixel (d : RefDisplay) (row col : Nat) : Bool := (d.pix.getD row []).getD col false

/-- `PIX[row][col] <- PIX[row][col] ^ 1`. -/
def RefDisplay.flip (d : RefDisplay) (row col : Nat) : RefDisplay :=
  { d with pix := d.pix.modify row fun line => line.modify col fun p => !p }

/-- The pixels, as (row, column), that the 1 bits of one sprite row land on (R194, R198): bit `7 - c` at column
`(px + c) mod DISPLAY_W`. -/
def RefDisplay.rowTargets (d : RefDisplay) (px py : Nat) (bits : Byte) : List (Nat × Nat) :=
  (List.range 8).filterMap fun c =>
    if bits.getLsbD (7 - c) then some (py % d.height, (px + c) % d.width) else none

/-- The pixels a sprite flips, in the order of the loops of R195: row `r` at `(py + r) mod DISPLAY_H`. -/
def RefDisplay.targets (d : RefDisplay) (px py : Nat) : List Byte → List (Nat × Nat)
  | [] => []
  | b :: bs => d.rowTargets px py b ++ d.targets px (py + 1) bs

/-- Flip a list of pixels one after another; the answer says whether one was lit when its turn came (R195). -/
def RefDisplay.flipAll : List (Nat × Nat) → RefDisplay → Bool × RefDisplay
  | [], d => (false, d)
  | p :: ps, d =>
    let (hit, d') := RefDisplay.flipAll ps (d.flip p.1 p.2)
    (d.pixel p.1 p.2 || hit, d')

/-- `Display.draw` of the reference device (R195). -/
def RefDisplay.draw (px py : Byte) (rows : List Byte) (d : RefDisplay) : Bool × RefDisplay :=
  RefDisplay.flipAll (d.targets px.toNat py.toNat rows) d

/-- `Display.clear` of the reference device (R195). -/
def RefDisplay.clear (d : RefDisplay) : RefDisplay := RefDisplay.blank d.width d.height

/-- `DISPLAY_W` and `DISPLAY_H` are positive (R6) and the pixels have the display's shape. -/
def RefDisplay.wf (d : RefDisplay) : Bool :=
  decide (0 < d.width) && decide (0 < d.height) && d.pix.length == d.height &&
    d.pix.all fun line => line.length == d.width

/-- A call the core has made to a live display. -/
inductive DisplayCall where
  | clear
  | draw (px py : Byte) (rows : List Byte)
  deriving DecidableEq, Repr

/-- A live display: all the core knows of it is what it was sent (log 25) and what it answers (R190). -/
structure LiveDisplay where
  sent : List DisplayCall
  clearReplies : Feed (Reply Unit)
  drawReplies : Feed (Reply Bool)
  deriving DecidableEq, Repr

/-- The display device bound to the display port at reset (R262). -/
inductive Display where
  | reference (d : RefDisplay)
  | live (d : LiveDisplay)
  deriving DecidableEq, Repr

/-- `Display.clear()` (R11, R190): the answer and the device after it. -/
def Display.clear : Display → Reply Unit × Display
  | .reference d => (.ok (), .reference d.clear)
  | .live d =>
    let (reply, feed) := d.clearReplies.take Config.clearReply
    (reply, .live { d with sent := d.sent ++ [.clear], clearReplies := feed })

/-- `Display.draw(px, py, rows)` (R11, R190): the answer, with the collision bit, and the device after it. -/
def Display.draw (px py : Byte) (rows : List Byte) : Display → Reply Bool × Display
  | .reference d =>
    let (hit, d') := d.draw px py rows
    (.ok hit, .reference d')
  | .live d =>
    let (reply, feed) := d.drawReplies.take Config.drawReply
    (reply, .live { d with sent := d.sent ++ [.draw px py rows], drawReplies := feed })

/-- The display after reset (R282, R286): the reference display all off, a live one untouched. -/
def Display.atReset : Display → Display
  | .reference d => .reference d.clear
  | .live d => .live d

/-- The reference display keeps its shape. -/
def Display.wf : Display → Bool
  | .reference d => d.wf
  | .live _ => true

/-! ### The keypad (R216, R40, R41) -/

/-- The keypad device: the key state, whether a key request is pending, and what the input context will do. -/
structure Keypad where
  keys : KeyState
  pending : Bool
  scans : Feed KeyScan
  waits : Feed KeyWait
  deriving DecidableEq, Repr

/-- `Keypad.is_key_pressed(k)` (R11, R216): the input context may rewrite the keys first (R40), then the state of key
`k` at the moment of the call is the answer. -/
def Keypad.isPressed (k : Fin 16) (kp : Keypad) : Reply Bool × Keypad :=
  let (scan, feed) := kp.scans.take Config.keyScan
  match scan with
  | .unchanged => (.ok kp.keys[k], { kp with scans := feed })
  | .changed keys => (.ok keys[k], { kp with scans := feed, keys := keys })
  | .err => (.err, { kp with scans := feed })

/-- `Keypad.block_for_key()` (R11, R41, R212): registers a one-shot request, and says what the port has for it at once. -/
def Keypad.blockForKey (kp : Keypad) : KeyWait × Keypad :=
  let (answer, feed) := kp.waits.take Config.keyWait
  (answer, { kp with waits := feed, pending := true })

/-- The request has been answered (R41): the registration is cleared. -/
def Keypad.answered (kp : Keypad) : Keypad := { kp with pending := false }

/-- The keypad after reset (R282, R286): no pending request, the keys untouched. -/
def Keypad.atReset (kp : Keypad) : Keypad := { kp with pending := false }

/-! ### The random source (R181, R182) -/

/-- The reference random device (R182): `SEQ` is `first :: rest`, so never empty, and `IDX` is `idx`. -/
structure RefRandom where
  first : Byte
  rest : List Byte
  idx : Nat
  deriving DecidableEq, Repr

/-- `SEQ`. -/
def RefRandom.seq (r : RefRandom) : List Byte := r.first :: r.rest

/-- `Random.next_byte()` of the reference device (R182). -/
def RefRandom.next (r : RefRandom) : Byte × RefRandom :=
  (r.seq.getD (r.idx % r.seq.length) r.first, { r with idx := (r.idx + 1) % r.seq.length })

/-- The random device bound to the random port at reset (R181, R262). -/
inductive RandomSource where
  | reference (r : RefRandom)
  | live (bytes : Feed Byte)
  deriving DecidableEq, Repr

/-- `Random.next_byte()` (R11, R181): a byte, and the device after it. It has no failure mode. -/
def RandomSource.next : RandomSource → Byte × RandomSource
  | .reference r =>
    let (b, r') := r.next
    (b, .reference r')
  | .live bytes =>
    let (b, feed) := bytes.take Config.randomByte
    (b, .live feed)

/-- The random device after reset (R282): the reference device at `IDX = 0`. -/
def RandomSource.atReset : RandomSource → RandomSource
  | .reference r => .reference { r with idx := 0 }
  | .live bytes => .live bytes

/-- The reference device's index is inside its sequence. -/
def RandomSource.wf : RandomSource → Bool
  | .reference r => r.idx < r.seq.length
  | .live _ => true

/-! ### The time port (R257) -/

/-- `Time.now_us()` (R250, R257): a natural number of microseconds; it may even decrease. -/
def nowUs (clock : Feed Nat) : Nat × Feed Nat := clock.take Config.nowUs

/-- The devices the host binds to the ports at reset (R262, R284). -/
structure Devices where
  display : Display
  keypad : Keypad
  random : RandomSource
  clock : Feed Nat
  deriving DecidableEq, Repr

end Sys2Proof.Machine
end

