-- ==== Sys2Proof/Machine/Defaults.lean ====
section
/-! DEFINITION. The arguments with which `State.reset` calls the spec's `reset(settings, devices)`. The spec gives the
settings NO default (00_scope.md R4, R5, 70_reset_and_hazards.md R285): `State.resetWith` takes them as arguments, and
these are one host's choice, that of the spec's test vectors (95_test_vectors.md, Conventions). Logs 4 to 8. -/

namespace Sys2Proof.Machine

/-- The conventional digit sprites (R33), [from general knowledge, not in source]: PRESUMED, log 7. -/
def conventionalFont : Font :=
  #v[#v[0xF0, 0x90, 0x90, 0x90, 0xF0],
     #v[0x20, 0x60, 0x20, 0x20, 0x70],
     #v[0xF0, 0x10, 0xF0, 0x80, 0xF0],
     #v[0xF0, 0x10, 0xF0, 0x10, 0xF0],
     #v[0x90, 0x90, 0xF0, 0x10, 0x10],
     #v[0xF0, 0x80, 0xF0, 0x10, 0xF0],
     #v[0xF0, 0x80, 0xF0, 0x90, 0xF0],
     #v[0xF0, 0x10, 0x20, 0x40, 0x40],
     #v[0xF0, 0x90, 0xF0, 0x90, 0xF0],
     #v[0xF0, 0x90, 0xF0, 0x10, 0xF0],
     #v[0xF0, 0x90, 0xF0, 0x90, 0x90],
     #v[0xE0, 0x90, 0xE0, 0x90, 0xE0],
     #v[0xF0, 0x80, 0x80, 0x80, 0xF0],
     #v[0xE0, 0x90, 0x90, 0x90, 0xE0],
     #v[0xF0, 0x80, 0xF0, 0x80, 0xF0],
     #v[0xF0, 0x80, 0xF0, 0x80, 0x80]]

/-- DESIGN CHOICE, log 4: the settings `State.reset` is called with. -/
def hostSettings : Settings :=
  { shiftMode := .oneRegister
    memoryMode := .noAdvance
    unsupportedPolicy := .halt
    pacing := .unlimited
    timerMode := .instructionCount
    stackPolicy := .wrap }

/-- DESIGN CHOICE, logs 5 and 6: the devices `State.reset` is called with. The reference display, 64 × 32; the
keypad, the random source and the clock are live, with nothing lined up. -/
def hostDevices : Devices :=
  { display := .reference (RefDisplay.blank 64 32)
    keypad :=
      { keys := Vector.replicate 16 false
        pending := false
        scans := Feed.empty KeyScan
        waits := Feed.empty KeyWait }
    random := .live (Feed.empty Byte)
    clock := Feed.empty Nat }

/-- The entry point (R23, R50, R282): DESIGN CHOICE D6 of the spec, log 8. -/
def entryPoint : Addr := 0x200

end Sys2Proof.Machine
end

