-- ==== Sys2Proof/Machine/State.lean ====
section
/-! DEFINITION. The machine's state, all the spec gives it (10_state.md, the summary of section 1), the causes of a
halt (60_exceptions.md R231 to R233), the reasons a step can stop, and reset (70_reset_and_hazards.md R282). -/

namespace Sys2Proof.Machine

/-- The port operation an I/O error comes from (R232). -/
inductive IoSource where
  | displayClear
  | displayDraw
  | keyQuery
  | keyWait
  | romRead
  deriving DecidableEq, Repr

/-- The kind of a contract violation (R233). -/
inductive Violation where
  | bounds
  | addressRange
  | spriteDigit
  | keyIndex
  | stackOverflow
  | stackUnderflow
  | romTooLarge
  deriving DecidableEq, Repr

/-- The cause of a halt (R230 to R233): names only, no codes (R235). -/
inductive Cause where
  | unsupportedInstruction (word : Word) (address : Addr)
  | ioError (source : IoSource)
  | contractViolation (kind : Violation)
  deriving DecidableEq, Repr

/-- `STATUS` (R35). `held x` is `Held`, in a `WaitKeyX` whose target register is `x` (R212; log 2). -/
inductive Status where
  | running
  | held (x : Reg)
  | halted (cause : Cause)
  deriving DecidableEq, Repr

/-- `SkippedUnsupported(word, address)`, the report to the host (R117). -/
structure Report where
  word : Word
  address : Addr
  deriving DecidableEq, Repr

/-- `MEM` (R32, R50): the reset contents' parameter `FONT` (R33), and the bytes that differ from the reset contents,
addresses strictly rising (`Memory.wf`). -/
structure Memory where
  font : Font
  cells : List Host.Cell
  deriving DecidableEq, Repr

/-- The state of the machine. -/
structure State where
  /-- `V[0]` .. `V[15]` (R20). -/
  v : Vector Byte 16
  /-- `I` (R28). -/
  i : Word
  /-- `PC` (R23). -/
  pc : Addr
  /-- `SP` (R30). -/
  sp : Fin 16
  /-- `STACK[0]` .. `STACK[15]` (R31). -/
  stack : Vector Addr 16
  /-- `DT` (R29). -/
  dt : Byte
  /-- `ST` (R29). -/
  st : Byte
  /-- `MEM` (R32). -/
  mem : Memory
  /-- `STATUS` (R35). -/
  status : Status
  /-- `TICK_COUNT` (R36). -/
  tickCount : Fin 8
  /-- `ACC_US` (R37). -/
  accUs : Nat
  /-- `LAST_US` (R37). -/
  lastUs : Nat
  /-- The settings (R34). -/
  settings : Settings
  /-- The display device (R39). -/
  display : Display
  /-- The keypad device (R40, R41). -/
  keypad : Keypad
  /-- The random device (R42). -/
  random : RandomSource
  /-- The time port (R257). -/
  clock : Feed Nat
  /-- The reports given to the host (R117), oldest first: an output (MODEL'S OWN, log 20). -/
  reports : List Report
  deriving DecidableEq, Repr

/-- Why a step stops. An error of the machine is no fault here: it is a next state, `STATUS = Halted` (R243, log 1). -/
inductive Fault where
  /-- Raised by `step` alone, of a halted machine: no step is enabled (R110, R243, R244). Safe. -/
  | halted (cause : Cause)
  /-- Raised by `step` alone, of a held machine: stuck, no step is enabled until the port answers (R110, R120, R258,
  93_implementation_defined.md U17); `State.answerKey` is that answer (log 2). Safe. -/
  | held (x : Reg)
  deriving DecidableEq, Repr

/-- Why an instruction has no meaning. -/
inductive Refusal where
  /-- Raised by `exec` of an instruction that is not modelled, by its mnemonic; no arm raises it now. Safe. -/
  | notModelled (mnemonic : String)
  deriving DecidableEq, Repr

/-- `reset(settings, devices)` (R280 to R286), with the parameter `FONT` (R6): the state of R282. In wall-clock mode the
clock is read once (R257); the register values are the spec's decision D6 (log 8), the sequencer's D18 (log 9). -/
def State.resetWith (settings : Settings) (devices : Devices) (font : Font) : State :=
  let now : Nat × Feed Nat :=
    match settings.timerMode with
    | .wallClock => nowUs devices.clock
    | .instructionCount => (0, devices.clock)
  { v := Vector.replicate 16 0
    i := 0
    pc := entryPoint
    sp := 0
    stack := Vector.replicate 16 0
    dt := 0
    st := 0
    mem := { font := font, cells := [] }
    status := .running
    tickCount := 0
    accUs := 0
    lastUs := now.1
    settings := settings
    display := devices.display.atReset
    keypad := devices.keypad.atReset
    random := devices.random.atReset
    clock := now.2
    reports := [] }

/-- The machine right after reset, with the arguments of Machine/Defaults.lean (logs 4 to 7). -/
def State.reset : State := State.resetWith hostSettings hostDevices conventionalFont

end Sys2Proof.Machine
end

