-- ==== Sys2Proof/Machine/Ops.lean ====
section
/-! DEFINITION. The named operations: memory (20_memory.md), registers, raising an error (60_exceptions.md R243), the
advance and the skip (10_state.md R24, 42_conditional_skip.md R144), the tick sequencer (60_exceptions.md R248 to R251),
the fetch and the unsupported word (40_step_cycle.md R111, R117), the key wait (48_keypad_timers.md R212) and the load
(70_reset_and_hazards.md R287, R288). -/

namespace Sys2Proof.Machine

/-- The answer of every meaning. -/
abbrev Result := Host.Outcome State Fault Refusal

/-! ### Memory -/

/-- The reset contents of memory (R32), which an unlisted address reads as: `FONT` at `5 * d + r`, zero elsewhere. -/
def Memory.base (m : Memory) (a : Nat) : Byte :=
  if h : a < 80 then m.font[a / 5][a % 5]'(Nat.mod_lt _ (by decide)) else 0

/-- The listed byte of an address. -/
def lookupCell (a : Nat) : List Host.Cell → Option Byte
  | [] => none
  | c :: cs => if c.1 = a then some c.2 else lookupCell a cs

/-- Set the byte of an address in a list that rises, keeping the canonical form: a byte equal to the reset contents is
not listed. -/
def storeCell (base : Byte) (a : Nat) (b : Byte) : List Host.Cell → List Host.Cell
  | [] => if b = base then [] else [(a, b)]
  | c :: cs =>
    if c.1 < a then c :: storeCell base a b cs
    else if c.1 = a then (if b = base then cs else (a, b) :: cs)
    else if b = base then c :: cs
    else (a, b) :: c :: cs

/-- `MEM[a]`. -/
def Memory.read (m : Memory) (a : Nat) : Byte := (lookupCell a m.cells).getD (m.base a)

/-- `MEM[a] <- b`. -/
def Memory.write (m : Memory) (a : Nat) (b : Byte) : Memory :=
  { m with cells := storeCell (m.base a) a b m.cells }

/-- The bytes of `n` addresses from `a` on, lowest first. -/
def Memory.readBytes (m : Memory) (a : Nat) : Nat → List Byte
  | 0 => []
  | n + 1 => m.read a :: m.readBytes (a + 1) n

/-- Write bytes from `a` on, lowest first (R56, R60). -/
def Memory.writeBytes (m : Memory) (a : Nat) : List Byte → Memory
  | [] => m
  | b :: bs => (m.write a b).writeBytes (a + 1) bs

/-- The bounds of R52: `n` bytes from `a` on are inside memory, and `a` itself is an address even when `n = 0`. -/
def inBounds (a n : Nat) : Bool := decide (a ≤ 0xFFF) && decide (a + n ≤ 0x1000)

/-- `MemRead(a, n)` (R52): none is the bounds violation. -/
def memRead (m : Memory) (a n : Nat) : Option (List Byte) :=
  if inBounds a n then some (m.readBytes a n) else none

/-- `MemWrite(a, n, bytes)` (R52): the whole range is checked before any byte moves; none is the bounds violation. -/
def memWrite (m : Memory) (a : Nat) (bytes : List Byte) : Option Memory :=
  if inBounds a bytes.length then some (m.writeBytes a bytes) else none

/-- The addresses of a list of cells rise strictly. -/
def cellsRise : List Host.Cell → Bool
  | [] => true
  | [_] => true
  | c :: d :: cs => decide (c.1 < d.1) && cellsRise (d :: cs)

/-- The canonical form of memory: addresses strictly rising, inside memory, and no byte listed that an unlisted address
would read as. -/
def Memory.wf (m : Memory) : Bool :=
  cellsRise m.cells && m.cells.all fun c => decide (c.1 < 0x1000) && decide (c.2 ≠ m.base c.1)

/-! ### Registers -/

/-- `V[x]` (R20). No register is hardwired. -/
def State.reg (s : State) (x : Reg) : Byte := s.v[x.val]

/-- `V[x] <- b` (R20). -/
def State.setReg (s : State) (x : Reg) (b : Byte) : State := { s with v := s.v.set x.val b }

/-! ### Raising an error (R243) -/

/-- `raise E` (R243): `STATUS <- Halted(E)` and nothing else; there is no return from it (R244). Every rule ends with
this call where it raises, so the rest of the rule is abandoned. -/
def raise (cause : Cause) (s : State) : State := { s with status := .halted cause }

/-! ### The program counter -/

/-- `advance_pc()` (R24): `PC + 2`, raising when that is above 0xFFF. -/
def advancePc (s : State) : State :=
  if s.pc.toNat + 2 > 0xFFF then raise (.contractViolation .addressRange) s else { s with pc := s.pc + 2 }

/-- `skip_if(cond)` (R144): one advance and, if the condition holds and the first did not raise, a second. -/
def skipIf (cond : Bool) (s : State) : State :=
  if cond ∧ s.pc.toNat + 2 ≤ 0xFFF then advancePc (advancePc s) else advancePc s

/-! ### The step's parts -/

/-- Phase 1 (R111): the word at `PC`, big-endian (R55); none is the bounds violation. -/
def fetchWord (s : State) : Option Word :=
  (memRead s.mem s.pc.toNat 2).map fun bytes => wordOfBytes (bytes.getD 0 0) (bytes.getD 1 0)

/-- `tick_timers()` (R248): each timer down by one, clamped at 0. -/
def tickTimers (s : State) : State :=
  { s with dt := if s.dt = 0 then 0 else s.dt - 1, st := if s.st = 0 then 0 else s.st - 1 }

/-- `should_tick()` in instruction-count mode (R249): true on every 8th query. -/
def queryCount (s : State) : Bool × State :=
  let count := s.tickCount + 1
  (count == 0, { s with tickCount := count })

/-- The tick period in wall-clock mode, in microseconds (R7, R250). -/
def tickPeriod : Nat := 16667

/-- The answer of the wall-clock sequencer and `ACC_US` after it (R250): a backward clock gives no tick and keeps the
accumulated time (R251); the residual beyond the period is carried. -/
def clockAnswer (now last acc : Nat) : Bool × Nat :=
  if now < last then (false, acc)
  else if tickPeriod ≤ acc + (now - last) then (true, acc + (now - last) - tickPeriod)
  else (false, acc + (now - last))

/-- `should_tick()` in wall-clock mode (R250): one reading of the clock, and `LAST_US <- now` in every case. -/
def queryClock (s : State) : Bool × State :=
  let reading := nowUs s.clock
  let answer := clockAnswer reading.1 s.lastUs s.accUs
  (answer.1, { s with clock := reading.2, lastUs := reading.1, accUs := answer.2 })

/-- `should_tick()` (R112): the sequencer that `TIMER_MODE` selects. -/
def shouldTick (s : State) : Bool × State :=
  match s.settings.timerMode with
  | .instructionCount => queryCount s
  | .wallClock => queryClock s

/-- Phase 2 (R112): one query and, if a tick is due, the tick. -/
def tickPhase (s : State) : State :=
  let (due, s') := shouldTick s
  if due then tickTimers s' else s'

/-- A word that does not decode (R117): skipped with a report to the host, or a halt at the word's address. -/
def unsupported (w : Word) (s : State) : State :=
  match s.settings.unsupportedPolicy with
  | .skip => advancePc { s with reports := s.reports ++ [{ word := w, address := s.pc }] }
  | .halt => raise (.unsupportedInstruction w s.pc) s

/-! ### The key wait (R212) -/

/-- What an answer to its request does to a held `WaitKeyX{x}` (R212, R120): a key completes the step, a failure raises,
and either clears the registration (R41; of a failure: log 28); with no answer yet the machine stays as it is. -/
def settleWait (x : Reg) (answer : KeyWait) (s : State) : State :=
  match answer with
  | .waiting => s
  | .key k =>
    advancePc (({ s with keypad := s.keypad.answered, status := .running } : State).setReg x (BitVec.ofNat 8 k.val))
  | .err => raise (.ioError .keyWait) { s with keypad := s.keypad.answered }

/-- The port answers the pending request (R35, R41, R120): the one way out of `Held` but reset. It is no step of the
engine: it completes the step that `WaitKeyX` has begun (R295, log 2). A machine that is not held has no request. -/
def State.answerKey (answer : KeyWait) (s : State) : State :=
  match s.status with
  | .held x => settleWait x answer s
  | .running => s
  | .halted _ => s

/-! ### The host's load (R287, R288) -/

/-- The size of the program region (R7). -/
def programRegionSize : Nat := 0xE00

/-- `load(rom)` (R287, R288): the ROM's bytes at 0x200; one too long is refused whole. A failed read halts, and what it
left in the program region is a free value (log 22). The host calls it once, on a freshly reset machine. -/
def State.load (rom : Reply (List Byte)) (s : State) : State :=
  match rom with
  | .ok bytes =>
    if bytes.length > programRegionSize then raise (.contractViolation .romTooLarge) s
    else { s with mem := s.mem.writeBytes 0x200 bytes }
  | .err =>
    raise (.ioError .romRead) { s with mem := s.mem.writeBytes 0x200 (Config.romRemnant.take programRegionSize) }

/-! ### Placing a word for the fetch -/

/-- Store two bytes where the next step fetches, and make that step enabled (log 26): `PC`, or 0x200 when `PC` is 0xFFF,
where no word can be fetched. -/
def placeWord (b0 b1 : Byte) (s : State) : State :=
  let pc : Addr := if s.pc.toNat + 2 ≤ 0x1000 then s.pc else entryPoint
  { s with pc := pc, status := .running, mem := s.mem.writeBytes pc.toNat [b0, b1] }

end Sys2Proof.Machine
end

