-- ==== Sys2Proof/Machine/Operands.lean ====
section
/-! DEFINITION. The operand forms: what an instruction's fields and registers make of each other before its effect
(00_scope.md R12, 44_alu.md R171, 47_index_memory.md R200 to R206, 41_flow_control.md R133). -/

namespace Sys2Proof.Machine

/-- The flag register VF, which is `V[15]` (R22). -/
def flagReg : Reg := 15

/-- The operand of the shifts (R171): `a = V[x]` or `b = V[y]`, by `SHIFT_MODE`. -/
def shiftOperand (mode : ShiftMode) (a b : Byte) : Byte :=
  match mode with
  | .oneRegister => a
  | .twoRegister => b

/-- The target of `JumpV0` (R133): none when the sum is above 0xFFF. -/
def jumpTarget (nnn : Addr) (v0 : Byte) : Option Addr :=
  if nnn.toNat + v0.toNat > 0xFFF then none else some (BitVec.ofNat 12 (nnn.toNat + v0.toNat))

/-- `sprite_address_for_digit(d)` (R51): none for a digit above 15. -/
def spriteAddress (d : Byte) : Option Word :=
  if d.toNat > 15 then none else some (BitVec.ofNat 16 (5 * d.toNat))

/-- The key a register's value names (R210): none above 15; the value is not masked. -/
def keyIndex (k : Byte) : Option (Fin 16) :=
  if h : k.toNat < 16 then some ⟨k.toNat, h⟩ else none

/-- The three decimal digits of a byte, hundreds first (R202). -/
def decimalDigits (v : Byte) : List Byte :=
  [BitVec.ofNat 8 (v.toNat / 100), BitVec.ofNat 8 (v.toNat / 10 % 10), BitVec.ofNat 8 (v.toNat % 10)]

/-- `[V[0], V[1], ..., V[x]]` (R203). -/
def bulkRegs (s : State) (x : Reg) : List Byte := s.v.toList.take (x.val + 1)

/-- `V[k] <- bytes[k]` for each byte there is (R204): the registers above keep their values. -/
def loadRegs (v : Vector Byte 16) (bytes : List Byte) : Vector Byte 16 :=
  Vector.ofFn fun k : Fin 16 => bytes.getD k.val v[k.val]

/-- `I` after a bulk transfer (R206): advanced by `x + 1` modulo 65536, or left, by `MEMORY_MODE`. -/
def bulkIndex (s : State) (x : Reg) : Word :=
  match s.settings.memoryMode with
  | .advance => BitVec.ofNat 16 (s.i.toNat + x.val + 1)
  | .noAdvance => s.i

end Sys2Proof.Machine
end

