-- ==== Sys2Proof/Machine/Flags.lean ====
section
/-! DEFINITION. The flag computations (10_state.md R26, 44_alu.md R160) and the order in which a result and its flag are
written (R27, R161). -/

namespace Sys2Proof.Machine

/-- A flag's value in VF: 1 or 0 (R26). -/
def flagByte (b : Bool) : Byte := if b then 1 else 0

/-- The carry of an addition (R166): the true sum is above 255. -/
def carryFlag (a b : Byte) : Byte := flagByte (decide (a.toNat + b.toNat > 255))

/-- The flag of the subtraction `a - b` (R167): 1 iff it does not borrow. -/
def noBorrowFlag (a b : Byte) : Byte := flagByte (decide (b.toNat ≤ a.toNat))

/-- The bit `Shr` shifts out (R168): bit 0. -/
def lowBitFlag (o : Byte) : Byte := BitVec.ofNat 8 (o.toNat % 2)

/-- The bit `Shl` shifts out (R170): bit 7. -/
def highBitFlag (o : Byte) : Byte := BitVec.ofNat 8 (o.toNat / 128)

/-- Write a result and its flag, in the order of R161: `V[x]` first, then VF, so with `x = 15` the flag remains. -/
def writeWithFlag (x : Reg) (result flag : Byte) (s : State) : State :=
  (s.setReg x result).setReg flagReg flag

end Sys2Proof.Machine
end

