-- ==== Sys2Proof/Machine/Alu.lean ====
section
/-! DEFINITION. The register-register ALU instructions (44_alu.md): operands are read first, then the result is
written, then the flag, then the advance (R161). -/

namespace Sys2Proof.Machine

/-- `Or{x,y}` (R163): no flag (R162). -/
def execOr (x y : Reg) (s : State) : Result := .next (advancePc (s.setReg x (s.reg x ||| s.reg y)))

/-- `And{x,y}` (R164): no flag (R162). -/
def execAnd (x y : Reg) (s : State) : Result := .next (advancePc (s.setReg x (s.reg x &&& s.reg y)))

/-- `Xor{x,y}` (R165): no flag (R162). -/
def execXor (x y : Reg) (s : State) : Result := .next (advancePc (s.setReg x (s.reg x ^^^ s.reg y)))

/-- `AddXY{x,y}` (R166): modulo 256, VF the carry. -/
def execAddXY (x y : Reg) (s : State) : Result :=
  .next (advancePc (writeWithFlag x (s.reg x + s.reg y) (carryFlag (s.reg x) (s.reg y)) s))

/-- `Sub{x,y}` (R167): VX - VY, VF 1 iff no borrow. -/
def execSub (x y : Reg) (s : State) : Result :=
  .next (advancePc (writeWithFlag x (s.reg x - s.reg y) (noBorrowFlag (s.reg x) (s.reg y)) s))

/-- `SubReverse{x,y}` (R169): VY - VX into VX, VF 1 iff no borrow. -/
def execSubReverse (x y : Reg) (s : State) : Result :=
  .next (advancePc (writeWithFlag x (s.reg y - s.reg x) (noBorrowFlag (s.reg y) (s.reg x)) s))

/-- `Shr{x,y}` (R168): the operand of R171 shifted right by one, VF its bit 0. -/
def execShr (x y : Reg) (s : State) : Result :=
  let o := shiftOperand s.settings.shiftMode (s.reg x) (s.reg y)
  .next (advancePc (writeWithFlag x (o >>> 1) (lowBitFlag o) s))

/-- `Shl{x,y}` (R170): the operand of R171 shifted left by one, VF its bit 7. -/
def execShl (x y : Reg) (s : State) : Result :=
  let o := shiftOperand s.settings.shiftMode (s.reg x) (s.reg y)
  .next (advancePc (writeWithFlag x (o <<< 1) (highBitFlag o) s))

end Sys2Proof.Machine
end

