-- ==== Sys2Proof/Machine/ConditionalSkip.lean ====
section
/-! DEFINITION. Conditional skips (42_conditional_skip.md): one shared pattern, `skipIf` (R144). -/

namespace Sys2Proof.Machine

/-- `SkipEqXNN{x,nn}` (R140). -/
def execSkipEqXNN (x : Reg) (nn : Byte) (s : State) : Result := .next (skipIf (s.reg x == nn) s)

/-- `SkipNeXNN{x,nn}` (R141). -/
def execSkipNeXNN (x : Reg) (nn : Byte) (s : State) : Result := .next (skipIf (s.reg x != nn) s)

/-- `SkipEqXY{x,y}` (R142). -/
def execSkipEqXY (x y : Reg) (s : State) : Result := .next (skipIf (s.reg x == s.reg y) s)

/-- `SkipNeXY{x,y}` (R143). -/
def execSkipNeXY (x y : Reg) (s : State) : Result := .next (skipIf (s.reg x != s.reg y) s)

end Sys2Proof.Machine
end

