-- ==== Sys2Proof/Machine/DataMove.lean ====
section
/-! DEFINITION. Data movement (43_data_move.md): none of these writes a flag. -/

namespace Sys2Proof.Machine

/-- `StoreXNN{x,nn}` (R150). -/
def execStoreXNN (x : Reg) (nn : Byte) (s : State) : Result := .next (advancePc (s.setReg x nn))

/-- `AddXNN{x,nn}` (R151): modulo 256, no flag. -/
def execAddXNN (x : Reg) (nn : Byte) (s : State) : Result := .next (advancePc (s.setReg x (s.reg x + nn)))

/-- `StoreXY{x,y}` (R152). -/
def execStoreXY (x y : Reg) (s : State) : Result := .next (advancePc (s.setReg x (s.reg y)))

/-- `StoreINNN{nnn}` (R153): zero-extended. -/
def execStoreINNN (nnn : Addr) (s : State) : Result := .next (advancePc { s with i := nnn.setWidth 16 })

end Sys2Proof.Machine
end

