-- ==== Sys2Proof/Machine/FlowControl.lean ====
section
/-! DEFINITION. Flow control (41_flow_control.md): `Jump`, `CallNNN`, `Return`, `JumpV0`. -/

namespace Sys2Proof.Machine

/-- `Jump{nnn}` (R130). -/
def execJump (nnn : Addr) (s : State) : Result := .next { s with pc := nnn }

/-- `CallNNN{nnn}` (R131): the address of the call itself is pushed; there is no advance. -/
def execCallNNN (nnn : Addr) (s : State) : Result :=
  .next <|
    if s.sp = 15 ∧ s.settings.stackPolicy = .fault then raise (.contractViolation .stackOverflow) s
    else { s with stack := s.stack.set s.sp.val s.pc, sp := s.sp + 1, pc := nnn }

/-- `Return` (R132): pop, then advance past the call. -/
def execReturn (s : State) : Result :=
  .next <|
    if s.sp = 0 ∧ s.settings.stackPolicy = .fault then raise (.contractViolation .stackUnderflow) s
    else advancePc { s with sp := s.sp - 1, pc := s.stack[(s.sp - 1).val] }

/-- `JumpV0{nnn}` (R133): always V0; above 0xFFF it raises. -/
def execJumpV0 (nnn : Addr) (s : State) : Result :=
  .next <|
    match jumpTarget nnn (s.reg 0) with
    | none => raise (.contractViolation .addressRange) s
    | some target => { s with pc := target }

end Sys2Proof.Machine
end

