-- ==== Sys2Proof/Machine/IndexMemory.lean ====
section
/-! DEFINITION. Index and memory instructions (47_index_memory.md): register-indirect through `I` (R205), no flag. -/

namespace Sys2Proof.Machine

/-- `AddIX{x}` (R200): modulo 65536, no flag. -/
def execAddIX (x : Reg) (s : State) : Result := .next (advancePc { s with i := s.i + (s.reg x).setWidth 16 })

/-- `StoreSpriteX{x}` (R201). -/
def execStoreSpriteX (x : Reg) (s : State) : Result :=
  .next <|
    match spriteAddress (s.reg x) with
    | none => raise (.contractViolation .spriteDigit) s
    | some a => advancePc { s with i := a }

/-- `StoreDecimal{x}` (R202): three digits at `I`, `I + 1`, `I + 2`; `I` is not changed. -/
def execStoreDecimal (x : Reg) (s : State) : Result :=
  .next <|
    match memWrite s.mem s.i.toNat (decimalDigits (s.reg x)) with
    | none => raise (.contractViolation .bounds) s
    | some mem => advancePc { s with mem := mem }

/-- `WriteToMemory{x}` (R203, R206). -/
def execWriteToMemory (x : Reg) (s : State) : Result :=
  .next <|
    match memWrite s.mem s.i.toNat (bulkRegs s x) with
    | none => raise (.contractViolation .bounds) s
    | some mem => advancePc { s with mem := mem, i := bulkIndex s x }

/-- `ReadFromMemory{x}` (R204, R206). -/
def execReadFromMemory (x : Reg) (s : State) : Result :=
  .next <|
    match memRead s.mem s.i.toNat (x.val + 1) with
    | none => raise (.contractViolation .bounds) s
    | some bytes => advancePc { s with v := loadRegs s.v bytes, i := bulkIndex s x }

end Sys2Proof.Machine
end

