-- ==== Sys2Proof/Machine/KeypadTimers.lean ====
section
/-! DEFINITION. Keypad and timer instructions (48_keypad_timers.md). -/

namespace Sys2Proof.Machine

/-- The shared body of the two key skips (R210, R211): check the key's number, ask the port, skip when the key's state
is the wanted one. -/
def skipOnKey (wanted : Bool) (x : Reg) (s : State) : State :=
  match keyIndex (s.reg x) with
  | none => raise (.contractViolation .keyIndex) s
  | some k =>
    let asked := s.keypad.isPressed k
    let called : State := { s with keypad := asked.2 }
    match asked.1 with
    | .err => raise (.ioError .keyQuery) called
    | .ok pressed => skipIf (pressed == wanted) called

/-- `SkipPressedX{x}` (R210). -/
def execSkipPressedX (x : Reg) (s : State) : Result := .next (skipOnKey true x s)

/-- `SkipNotPressedX{x}` (R211). -/
def execSkipNotPressedX (x : Reg) (s : State) : Result := .next (skipOnKey false x s)

/-- `WaitKeyX{x}` (R212): the engine is held with its request registered; what the port has for it at once settles it,
else it stays held until `State.answerKey` (log 2). -/
def execWaitKeyX (x : Reg) (s : State) : Result :=
  let asked := s.keypad.blockForKey
  .next (settleWait x asked.1 { s with status := .held x, keypad := asked.2 })

/-- `ReadDelayX{x}` (R213). -/
def execReadDelayX (x : Reg) (s : State) : Result := .next (advancePc (s.setReg x s.dt))

/-- `SetDelayX{x}` (R214). -/
def execSetDelayX (x : Reg) (s : State) : Result := .next (advancePc { s with dt := s.reg x })

/-- `SetSoundX{x}` (R215). -/
def execSetSoundX (x : Reg) (s : State) : Result := .next (advancePc { s with st := s.reg x })

end Sys2Proof.Machine
end

