-- ==== Sys2Proof/Machine/RandomDraw.lean ====
section
/-! DEFINITION. The random instruction (45_random.md) and the display instructions (46_draw.md). -/

namespace Sys2Proof.Machine

/-- `Random{x,nn}` (R180): one byte of the random port under a mask; the byte is drawn whatever the mask. -/
def execRandom (x : Reg) (nn : Byte) (s : State) : Result :=
  let r := s.random.next
  .next (advancePc (({ s with random := r.2 } : State).setReg x (r.1 &&& nn)))

/-- `ClearScreen` (R191). -/
def execClearScreen (s : State) : Result :=
  let called : State := { s with display := s.display.clear.2 }
  .next <|
    match s.display.clear.1 with
    | .err => raise (.ioError .displayClear) called
    | .ok _ => advancePc called

/-- `DrawXYN{x,y,n}` (R192): the coordinates are passed as they are (R193) and read before VF is written. -/
def execDrawXYN (x y : Reg) (n : Nibble) (s : State) : Result :=
  .next <|
    match memRead s.mem s.i.toNat n.toNat with
    | none => raise (.contractViolation .bounds) s
    | some rows =>
      let drawn := s.display.draw (s.reg x) (s.reg y) rows
      let called : State := { s with display := drawn.2 }
      match drawn.1 with
      | .err => raise (.ioError .displayDraw) called
      | .ok collision => advancePc (called.setReg flagReg (flagByte collision))

end Sys2Proof.Machine
end

