-- ==== Sys2Proof/Machine/Dispatch.lean ====
section
/-! DEFINITION. The meaning of each instruction, one arm per row of the opcode table (30_encoding.md R90). -/

namespace Sys2Proof.Machine

def exec (i : Instr) (s : State) : Host.Outcome State Fault Refusal :=
  match i with
  | .clearScreen => Sys2Proof.Machine.execClearScreen s
  | .ret => Sys2Proof.Machine.execReturn s
  | .jump nnn => Sys2Proof.Machine.execJump nnn s
  | .callNNN nnn => Sys2Proof.Machine.execCallNNN nnn s
  | .skipEqXNN x nn => Sys2Proof.Machine.execSkipEqXNN x nn s
  | .skipNeXNN x nn => Sys2Proof.Machine.execSkipNeXNN x nn s
  | .skipEqXY x y => Sys2Proof.Machine.execSkipEqXY x y s
  | .storeXNN x nn => Sys2Proof.Machine.execStoreXNN x nn s
  | .addXNN x nn => Sys2Proof.Machine.execAddXNN x nn s
  | .storeXY x y => Sys2Proof.Machine.execStoreXY x y s
  | .or x y => Sys2Proof.Machine.execOr x y s
  | .and x y => Sys2Proof.Machine.execAnd x y s
  | .xor x y => Sys2Proof.Machine.execXor x y s
  | .addXY x y => Sys2Proof.Machine.execAddXY x y s
  | .sub x y => Sys2Proof.Machine.execSub x y s
  | .shr x y => Sys2Proof.Machine.execShr x y s
  | .subReverse x y => Sys2Proof.Machine.execSubReverse x y s
  | .shl x y => Sys2Proof.Machine.execShl x y s
  | .skipNeXY x y => Sys2Proof.Machine.execSkipNeXY x y s
  | .storeINNN nnn => Sys2Proof.Machine.execStoreINNN nnn s
  | .jumpV0 nnn => Sys2Proof.Machine.execJumpV0 nnn s
  | .random x nn => Sys2Proof.Machine.execRandom x nn s
  | .drawXYN x y n => Sys2Proof.Machine.execDrawXYN x y n s
  | .skipPressedX x => Sys2Proof.Machine.execSkipPressedX x s
  | .skipNotPressedX x => Sys2Proof.Machine.execSkipNotPressedX x s
  | .readDelayX x => Sys2Proof.Machine.execReadDelayX x s
  | .waitKeyX x => Sys2Proof.Machine.execWaitKeyX x s
  | .setDelayX x => Sys2Proof.Machine.execSetDelayX x s
  | .setSoundX x => Sys2Proof.Machine.execSetSoundX x s
  | .addIX x => Sys2Proof.Machine.execAddIX x s
  | .storeSpriteX x => Sys2Proof.Machine.execStoreSpriteX x s
  | .storeDecimal x => Sys2Proof.Machine.execStoreDecimal x s
  | .writeToMemory x => Sys2Proof.Machine.execWriteToMemory x s
  | .readFromMemory x => Sys2Proof.Machine.execReadFromMemory x s

end Sys2Proof.Machine
end

