-- ==== Sys2Proof/Machine/Step.lean ====
section
/-! DEFINITION. One step (40_step_cycle.md R118): fetch, tick query, pacing (no effect, R114), decode and execute; what a
held and a halted machine answer (R110, R120, R243); and how a word is placed for the next fetch. -/

namespace Sys2Proof.Machine

/-- `step()` (R118), enabled only when `STATUS = Running` (R110): a halted machine takes no step (R243), nor does a held
one (R120, R258; the port's answer is `State.answerKey`). -/
def step (s : State) : Host.Outcome State Fault Refusal :=
  match s.status with
  | .halted cause => .fault (.halted cause)
  | .held x => .fault (.held x)
  | .running =>
    match fetchWord s with
    | none => .next (raise (.contractViolation .bounds) s)
    | some w =>
      match decode w with
      | .ok i => exec i (tickPhase s)
      | .error _ => .next (unsupported w (tickPhase s))

/-- The state with a table word stored where `step` fetches its next instruction (log 26). -/
def State.withFetchWord (s : State) (nbits w : Nat) : State :=
  placeWord (tableBytes nbits w).1 (tableBytes nbits w).2 s

end Sys2Proof.Machine
end

