-- ==== Sys2Proof/Machine/Run.lean ====
section
/-! DEFINITION. The host's runs (40_step_cycle.md R121, R123, 60_exceptions.md R262): steps while `STATUS = Running`, with
gas and to completion, how a run stands when it comes back, and how it goes on when a key arrives. The gas is the
host's: no field of State (10_state.md R43). -/

namespace Sys2Proof.Machine

/-- `run(gas)` (R121): steps while `STATUS = Running` and gas is left. The answer is the state it comes to and the gas it
has not used. A step that raises counts as taken, and so does a `WaitKeyX`, once, however long it is held (R295). -/
def State.runGas : Nat → State → State × Nat
  | 0, s => (s, 0)
  | gas + 1, s =>
    match s.status with
    | .running =>
      match step s with
      | .next t => t.runGas gas
      | .fault _ => (s, gas + 1)
      | .refused _ => (s, gas + 1)
    | .held _ => (s, gas + 1)
    | .halted _ => (s, gas + 1)

/-- How a run stands (R123): ended by a halt, ended with its gas spent, or hanging in a key wait, which is no end (R258). -/
inductive RunEnd where
  | halted (cause : Cause)
  | gasSpent
  | hanging (x : Reg)
  deriving DecidableEq, Repr

/-- How a run that has come to `s` stands (R123). -/
def State.runEnd (s : State) : RunEnd :=
  match s.status with
  | .halted cause => .halted cause
  | .held x => .hanging x
  | .running => .gasSpent

/-- A run that hangs in a key wait goes on with the gas it has left when the port answers (R120, R258). -/
def State.resumeRun (answer : KeyWait) (gas : Nat) (s : State) : State × Nat := (s.answerKey answer).runGas gas

/-- `run()` (R121) from `s` comes to its end in `t`: some number of steps halts there. DESIGN CHOICE (log 31): a key wait
without an answer at once stops the relation. It holds of no end state from there, and a run whose key comes later is this
relation taken again from the state `State.answerKey` leaves. -/
def State.RunsToCompletion (s t : State) : Prop :=
  ∃ gas left cause, s.runGas gas = (t, left) ∧ t.runEnd = .halted cause

end Sys2Proof.Machine
end

