-- ==== Sys2Proof/Safety.lean ====
section
/-! DEFINITION. What counts as a good state and a safe run, in the terms the claims use. -/

namespace Sys2Proof.Machine

/-- The engine is held in a key wait (R35). -/
def Status.isHeld : Status → Bool
  | .held _ => true
  | .running => false
  | .halted _ => false

/-- The plain part of the invariant: memory in canonical form (R50), the devices in their ranges (R6, R182, R195), and
a key request pending exactly while the engine is held (R41). -/
def State.wf (s : State) : Bool :=
  s.mem.wf && s.display.wf && s.random.wf && (s.keypad.pending == s.status.isHeld)

/-- A held engine stands at the `WaitKeyX` it executes (R120, R23): `held x` remembers nothing that memory at `PC` does
not say (R43). -/
def State.HeldAtWait (s : State) : Prop :=
  ∀ x, s.status = .held x → ∃ w, fetchWord s = some w ∧ decode w = .ok (.waitKeyX x)

/-- The invariant every step keeps. -/
def State.Inv (s : State) : Prop := s.wf = true ∧ s.HeldAtWait

/-- The machine has not halted: what a safe run keeps (R122, R123). -/
def State.Live (s : State) : Prop := ∀ cause, s.status ≠ .halted cause

end Sys2Proof.Machine
end

