-- ==== Sys2Proof/Certificates/Slice0/Obligations.lean ====
section
/-! DEFINITION. The statements for the provers. Where a clause rests on a decision of the spec itself (D<n> of
92_eei_decisions.md) or on a choice of this model (notes/assumptions/<n>.md, "log n"), the docstring says so. -/

namespace Sys2Proof.Claims

open Sys2Proof.Machine

/-- The cause of an advance past 0xFFF. -/
def addressRange : Status := .halted (.contractViolation .addressRange)

/-- The end of an ordinary rule (R24): `effect` is the state the rule has made of `s`, and `PC` advances by 2; at 0xFFE
and above the advance raises after everything else is written (the raise: D7 of the spec, log 12). -/
def Advances (s effect : State) (r : Result) : Prop :=
  (s.pc.toNat ≤ 0xFFD → r = .next { effect with pc := s.pc + 2 }) ∧
  (0xFFE ≤ s.pc.toNat → r = .next { effect with status := addressRange })

/-- An instruction with the given effect on every state, and nothing else but the advance. -/
def Completes (i : Instr) (effect : State → State) : Prop := ∀ s : State, Advances s (effect s) (exec i s)

/-- The skip pattern (R144) from state `s`: each advance checked on its own. -/
def Skips (cond : Bool) (s : State) (r : Result) : Prop :=
  (cond = false → s.pc.toNat ≤ 0xFFD → r = .next { s with pc := s.pc + 2 }) ∧
  (cond = true → s.pc.toNat ≤ 0xFFB → r = .next { s with pc := s.pc + 4 }) ∧
  (cond = true → 0xFFC ≤ s.pc.toNat → s.pc.toNat ≤ 0xFFD →
    r = .next { s with pc := s.pc + 2, status := addressRange }) ∧
  (0xFFE ≤ s.pc.toNat → r = .next { s with status := addressRange })

/-- `V` with `V[x] <- n mod 256`. -/
def putReg (s : State) (x : Reg) (n : Nat) : Vector Byte 16 := s.v.set x.val (BitVec.ofNat 8 n)

/-- `V` with `V[x] <- n mod 256` and then `V[15] <- flag` (R161; the order: D13 of the spec, log 11). -/
def putRegFlag (s : State) (x : Reg) (n flag : Nat) : Vector Byte 16 :=
  (putReg s x n).set 15 (BitVec.ofNat 8 flag)

/-- The operand of the shifts, as a number (R171). -/
def shiftSource (s : State) (x y : Reg) : Nat :=
  match s.settings.shiftMode with
  | .oneRegister => s.v[x.val].toNat
  | .twoRegister => s.v[y.val].toNat

/-- `I` after a bulk transfer of `x + 1` bytes (R206). -/
def indexAfterBulk (s : State) (x : Reg) : Word :=
  match s.settings.memoryMode with
  | .advance => BitVec.ofNat 16 ((s.i.toNat + x.val + 1) % 65536)
  | .noAdvance => s.i

/-- The registers an instruction may write: its target, VF where it defines a flag (R26), the loaded ones (R204). -/
def mayWrite : Instr → Reg → Bool
  | .storeXNN x _, r | .addXNN x _, r | .storeXY x _, r | .or x _, r | .and x _, r | .xor x _, r | .random x _, r
  | .readDelayX x, r | .waitKeyX x, r => r == x
  | .addXY x _, r | .sub x _, r | .subReverse x _, r | .shr x _, r | .shl x _, r => r == x || r == 15
  | .drawXYN _ _ _, r => r == 15
  | .readFromMemory x, r => decide (r.val ≤ x.val)
  | .clearScreen, _ | .ret, _ | .jump _, _ | .callNNN _, _ | .skipEqXNN _ _, _ | .skipNeXNN _ _, _
  | .skipEqXY _ _, _ | .skipNeXY _ _, _ | .storeINNN _, _ | .jumpV0 _, _ | .skipPressedX _, _
  | .skipNotPressedX _, _ | .setDelayX _, _ | .setSoundX _, _ | .addIX _, _ | .storeSpriteX _, _
  | .storeDecimal _, _ | .writeToMemory _, _ => false

/-- The bytes an instruction stores to: their first address and their number (R59). -/
def storedBytes (s : State) : Instr → Nat × Nat
  | .storeDecimal _ => (s.i.toNat, 3)
  | .writeToMemory x => (s.i.toNat, x.val + 1)
  | _ => (0, 0)

/-- The instructions that change `I` (R28). -/
def writesIndex : Instr → Bool
  | .storeINNN _ | .addIX _ | .storeSpriteX _ | .writeToMemory _ | .readFromMemory _ => true
  | _ => false

/-- The instructions that touch `SP` and `STACK` (R31). -/
def usesStack : Instr → Bool
  | .callNNN _ | .ret => true
  | _ => false

/-- The instructions that write `PC` with something other than an advance or a skip (41_flow_control.md). -/
def isTransfer : Instr → Bool
  | .jump _ | .callNNN _ | .ret | .jumpV0 _ => true
  | _ => false

/-- What an instruction may raise: the table of R234, with the advance's error where the instruction advances. -/
def mayRaise : Instr → Cause → Bool
  | .jump _, _ => false
  | .callNNN _, c => c == .contractViolation .stackOverflow
  | .ret, c => c == .contractViolation .stackUnderflow || c == .contractViolation .addressRange
  | .clearScreen, c => c == .ioError .displayClear || c == .contractViolation .addressRange
  | .drawXYN _ _ _, c =>
    c == .contractViolation .bounds || c == .ioError .displayDraw || c == .contractViolation .addressRange
  | .skipPressedX _, c | .skipNotPressedX _, c =>
    c == .contractViolation .keyIndex || c == .ioError .keyQuery || c == .contractViolation .addressRange
  | .waitKeyX _, c => c == .ioError .keyWait || c == .contractViolation .addressRange
  | .storeSpriteX _, c => c == .contractViolation .spriteDigit || c == .contractViolation .addressRange
  | .storeDecimal _, c | .writeToMemory _, c | .readFromMemory _, c =>
    c == .contractViolation .bounds || c == .contractViolation .addressRange
  | _, c => c == .contractViolation .addressRange

/-- The state of an answer that is a next state; the state itself where there is none. -/
def nextOr (s : State) : Result → State
  | .next t => t
  | .fault _ => s
  | .refused _ => s

/-- Calls, one after another, each from the state the one before has left (only their effect: nothing is fetched). -/
def callAll : List Addr → State → State
  | [], s => s
  | a :: as, s => callAll as (nextOr s (exec (.callNNN a) s))

/-- `n` returns, one after another. -/
def returnAll : Nat → State → State
  | 0, s => s
  | n + 1, s => returnAll n (nextOr s (exec .ret s))

/-- The wall-clock sequencer over a list of readings: how many ticks, `LAST_US` and `ACC_US` at the end. -/
def clockRun : List Nat → Nat → Nat → Nat × Nat × Nat
  | [], last, acc => (0, last, acc)
  | now :: rest, last, acc =>
    let answer := clockAnswer now last acc
    let after := clockRun rest now answer.2
    (after.1 + (if answer.1 then 1 else 0), after.2)

/-- The display the reference display shows through pixel `(row, col)` being hit by a sprite (R194). -/
def hits (d : RefDisplay) (px py : Byte) (rows : List Byte) (row col : Nat) : Prop :=
  ∃ r c, ∃ h : r < rows.length, c < 8 ∧ rows[r].getLsbD (7 - c) = true ∧
    row = (py.toNat + r) % d.height ∧ col = (px.toNat + c) % d.width

end Sys2Proof.Claims

open Sys2Proof Sys2Proof.Machine Sys2Proof.Claims

/-! ### Reset and load -/

/-- R282: the state after `reset(settings, devices)`, for every argument. The register values are the spec's decision D6
(log 8), the sequencer's D18 (log 9), the pixels' D26; `reports` is the model's own field (log 20). -/
def Obligations.ResetLeavesTheStateOfTheTable : Prop :=
  ∀ (settings : Settings) (devices : Devices) (font : Font),
    let s := State.resetWith settings devices font
    (∀ x, s.reg x = 0) ∧ s.i = 0 ∧ s.pc = 0x200 ∧ s.sp = 0 ∧ (∀ k : Fin 16, s.stack[k.val] = 0) ∧ s.dt = 0 ∧ s.st = 0 ∧
    s.status = .running ∧ s.tickCount = 0 ∧ s.accUs = 0 ∧ s.settings = settings ∧ s.keypad.pending = false ∧
    s.keypad.keys = devices.keypad.keys ∧ s.reports = [] ∧
    (settings.timerMode = .wallClock → s.lastUs = (nowUs devices.clock).1) ∧
    (∀ d, devices.display = .reference d →
      ∃ d', s.display = .reference d' ∧ d'.width = d.width ∧ d'.height = d.height ∧ ∀ r c, d'.pixel r c = false) ∧
    (∀ r, devices.random = .reference r → s.random = .reference { r with idx := 0 })

/-- R32: the font and zeros after reset; after the load of a ROM its bytes, the rest as before. -/
def Obligations.MemoryAfterResetAndLoad : Prop :=
  ∀ (settings : Settings) (devices : Devices) (font : Font) (rom : List Byte), rom.length ≤ 0xE00 →
    let reset := (State.resetWith settings devices font).mem
    let loaded := ((State.resetWith settings devices font).load (.ok rom)).mem
    (∀ (d : Fin 16) (r : Fin 5), reset.read (5 * d.val + r.val) = font[d.val][r.val] ∧
      loaded.read (5 * d.val + r.val) = font[d.val][r.val]) ∧
    (∀ a, 80 ≤ a → reset.read a = 0) ∧
    (∀ k, ∀ h : k < rom.length, loaded.read (0x200 + k) = rom[k]) ∧
    (∀ a, 80 ≤ a → a < 0x200 ∨ 0x200 + rom.length ≤ a → loaded.read a = 0)

/-- R288: a ROM too long is refused whole (D27 of the spec), and a failed read halts; below 0x200 memory is untouched
(what a failed read leaves above is a free value, log 22). -/
def Obligations.LoadFailuresHaltTheMachine : Prop :=
  ∀ s : State,
    (∀ rom : List Byte, 0xE00 < rom.length →
      s.load (.ok rom) = { s with status := .halted (.contractViolation .romTooLarge) }) ∧
    ∃ mem : Memory, s.load .err = { s with mem := mem, status := .halted (.ioError .romRead) } ∧
      ∀ a, a < 0x200 → mem.read a = s.mem.read a

/-- The invariant of Safety.lean holds after reset, for every setting, every display of positive size and every font, and
of `State.reset` (the model's choice of arguments: logs 4 to 7). A load, of any ROM or failed, keeps it on a running
machine (R262: it comes before the first step), and one of at most 0xE00 bytes changes memory alone (R287). -/
def Obligations.ResetMeetsTheInvariant : Prop :=
  (∀ (settings : Settings) (devices : Devices) (font : Font),
    (∀ d, devices.display = .reference d → 0 < d.width ∧ 0 < d.height) →
    (State.resetWith settings devices font).Inv) ∧
  State.reset.Inv ∧
  (∀ (s : State) (rom : Reply (List Byte)), s.Inv → s.status = .running → (s.load rom).Inv) ∧
  ∀ (s : State) (rom : List Byte), rom.length ≤ 0xE00 → ∃ mem : Memory, s.load (.ok rom) = { s with mem := mem }

/-! ### The codec -/

/-- R95: decode of encode is the instruction, and encode of decode is the bytes. -/
def Obligations.DecodeAndEncodeAreInverse : Prop :=
  (∀ i : Instr, decodeBytes (encodeBytes i) = .ok i) ∧
  (∀ (b0 b1 : Byte) (i : Instr), decodeBytes [b0, b1] = .ok i → encodeBytes i = [b0, b1])

/-- R90, R92: the table decoder is the family-by-family decoder of the spec (the bit patterns are the spec's general
knowledge, log 10). -/
def Obligations.TableDecoderIsFamilyDecoder : Prop := ∀ w : Word, decode w = decodeByFamily w

/-- R90: the rows are disjoint, so the order of testing does not matter; and every row of the list is met. -/
def Obligations.OpcodeRowsAreDisjoint : Prop :=
  (∀ (o p : Op) (w : Word), o.row.selects w = true → p.row.selects w = true → o = p) ∧ ∀ o : Op, o ∈ Op.all

/-- R92, R93: a word decodes to an instruction or is the unsupported instruction that carries it; any other number of
bytes is the caller's error (R80). -/
def Obligations.UndecodedWordsAreCarried : Prop :=
  (∀ w : Word, (∃ i, decode w = .ok i ∧ i.op.row.selects w = true) ∨
    (decode w = .error (.unsupportedInstruction w) ∧ ∀ o : Op, o.row.selects w = false)) ∧
  (∀ bs : List Byte, bs.length ≠ 2 → decodeBytes bs = .error (.notTwoBytes bs.length))

/-- R103, R104 and the vectors C1 to C8: a few words written out from the table (log 10). -/
def Obligations.WordsOfTheSpecDecode : Prop :=
  decode 0xD125 = .ok (.drawXYN 1 2 5) ∧ decode 0xF265 = .ok (.readFromMemory 2) ∧ decode 0x2210 = .ok (.callNNN 0x210) ∧
  decode 0x70FF = .ok (.addXNN 0 255) ∧ decode 0x00EE = .ok .ret ∧ decode 0x8016 = .ok (.shr 0 1) ∧
  decode 0x833E = .ok (.shl 3 3) ∧ decode 0xE19E = .ok (.skipPressedX 1) ∧ decode 0x6A55 = .ok (.storeXNN 10 0x55) ∧
  decode 0x8018 = .error (.unsupportedInstruction 0x8018) ∧ decode 0x5121 = .error (.unsupportedInstruction 0x5121) ∧
  decode 0xE19F = .error (.unsupportedInstruction 0xE19F) ∧ decode 0x0000 = .error (.unsupportedInstruction 0x0000)

/-- R100 (the notation is the spec's decision D24): an instruction written with its operands reads back as itself, and
what reads as an instruction is what is written of it, so every number out of range is refused. -/
def Obligations.WrittenInstructionsReadBack : Prop :=
  (∀ i : Instr, i.toRaw.check = .ok i) ∧ ∀ (r : Raw) (i : Instr), r.check = .ok i → i.toRaw = r

/-! ### The step -/

/-- R118, R111, R112, R55: a running machine below 0xFFF fetches the big-endian word at `PC`, makes its tick query and
performs the decoded instruction. -/
def Obligations.StepRunsTheDecodedInstruction : Prop :=
  ∀ (s : State) (i : Instr), s.status = .running → s.pc.toNat ≤ 0xFFE →
    decode (BitVec.ofNat 16 ((s.mem.read s.pc.toNat).toNat * 256 + (s.mem.read (s.pc.toNat + 1)).toNat)) = .ok i →
    step s = exec i (tickPhase s)

/-- R111: at `PC = 0xFFF` the fetch raises `Bounds`, no query is made and nothing else changes. -/
def Obligations.FetchAtTheLastByteRaises : Prop :=
  ∀ s : State, s.status = .running → s.pc = 0xFFF →
    step s = .next { s with status := .halted (.contractViolation .bounds) }

/-- R117: a word that does not decode, after its tick query: skipped with a report, or a halt with `PC` at the word. -/
def Obligations.UnsupportedWordFollowsThePolicy : Prop :=
  ∀ (s : State) (w : Word), s.status = .running → s.pc.toNat ≤ 0xFFE →
    w = BitVec.ofNat 16 ((s.mem.read s.pc.toNat).toNat * 256 + (s.mem.read (s.pc.toNat + 1)).toNat) →
    decode w = .error (.unsupportedInstruction w) →
    (s.settings.unsupportedPolicy = .halt →
      step s = .next { tickPhase s with status := .halted (.unsupportedInstruction w s.pc) }) ∧
    (s.settings.unsupportedPolicy = .skip →
      Advances s { tickPhase s with reports := s.reports ++ [{ word := w, address := s.pc }] } (step s))

/-- The model's interface (log 26): with a word placed for the fetch, the next step runs exactly that word's
instruction, in every state whose memory is in canonical form. -/
def Obligations.PlacedWordIsTheNextInstruction : Prop :=
  ∀ (s : State) (w : Nat) (i : Instr), s.mem.wf = true → decodeTableWord 16 w = some i →
    step (s.withFetchWord 16 w) = exec i (tickPhase (s.withFetchWord 16 w)) ∧
    (s.withFetchWord 16 w).v = s.v ∧ (s.pc.toNat ≤ 0xFFE → (s.withFetchWord 16 w).pc = s.pc)

/-- R110, R243, R244, R120, R258: a step answers a next state exactly when the machine is running; a halted one takes no
step, and a held one none until the port answers (log 2); nothing is refused. -/
def Obligations.StepsAreEnabledExactlyWhenRunning : Prop :=
  (∀ s : State, s.status = .running → ∃ t, step s = .next t) ∧
  (∀ (s : State) (c : Cause), s.status = .halted c → step s = .fault (.halted c)) ∧
  ∀ (s : State) (x : Reg), s.status = .held x → step s = .fault (.held x)

/-- R120, R212, R253, R258 (the hold is the spec's decision D23; the answer as an operation beside the step is the model's,
log 2; the registration after a failure: log 28): a held machine takes no step, whatever gas a run has; the port's
answer, and nothing else, moves it: a key completes its `WaitKeyX`, with no fetch and no tick query, a failure halts it;
no answer yet changes nothing; and the answer keeps the invariant. A machine that is not held has no request. -/
def Obligations.HeldMachineOnlyAwaitsTheKey : Prop :=
  (∀ (s : State) (x : Reg), s.status = .held x →
    (∀ gas, s.runGas gas = (s, gas)) ∧
    s.answerKey .waiting = s ∧
    s.answerKey .err = { s with keypad := { s.keypad with pending := false }, status := .halted (.ioError .keyWait) } ∧
    (∀ k : Fin 16, Advances s
      { s with keypad := { s.keypad with pending := false }, status := .running, v := putReg s x k.val }
      (.next (s.answerKey (.key k))))) ∧
  (∀ (s : State) (answer : KeyWait), (∀ x, s.status ≠ .held x) → s.answerKey answer = s) ∧
  ∀ (s : State) (answer : KeyWait), s.Inv → (s.answerKey answer).Inv

/-- R112, R253: every step of a running machine makes one query of its sequencer, whatever becomes of its word, and none
when its fetch raises: in instruction-count mode the count goes on by one and the clock is not read; in wall-clock mode
the clock is read once, `LAST_US` is the reading, and the count stays. -/
def Obligations.EveryStepMakesOneTickQuery : Prop :=
  ∀ s t : State, s.status = .running → step s = .next t →
    (s.pc = 0xFFF → t.tickCount = s.tickCount ∧ t.clock = s.clock ∧ t.lastUs = s.lastUs ∧ t.accUs = s.accUs) ∧
    (s.pc ≠ 0xFFF → s.settings.timerMode = .instructionCount →
      t.tickCount = s.tickCount + 1 ∧ t.clock = s.clock ∧ t.lastUs = s.lastUs ∧ t.accUs = s.accUs) ∧
    (s.pc ≠ 0xFFF → s.settings.timerMode = .wallClock →
      t.tickCount = s.tickCount ∧ t.clock = (nowUs s.clock).2 ∧ t.lastUs = (nowUs s.clock).1 ∧
      t.accUs = (clockAnswer (nowUs s.clock).1 s.lastUs s.accUs).2)

/-! ### The timers -/

/-- R248: the decay tick lowers both timers by one, clamped at 0, and changes nothing else. -/
def Obligations.DecayTickLowersBothTimers : Prop :=
  ∀ s : State, tickTimers s = { s with dt := BitVec.ofNat 8 (s.dt.toNat - 1), st := BitVec.ofNat 8 (s.st.toNat - 1) }

/-- R249: over `k` queries in instruction-count mode a tick comes on each query that takes the count to 0 modulo 8; from
`TICK_COUNT = 0` that is every 8th query. -/
def Obligations.CountedSequencerTicksEveryEighthQuery : Prop :=
  ∀ (s : State) (k : Nat), s.settings.timerMode = .instructionCount →
    (tickPhase^[k] s).tickCount.val = (s.tickCount.val + k) % 8 ∧
    (tickPhase^[k] s).dt.toNat = s.dt.toNat - (s.tickCount.val + k) / 8 ∧
    (tickPhase^[k] s).st.toNat = s.st.toNat - (s.tickCount.val + k) / 8 ∧
    (shouldTick (tickPhase^[k] s)).1 = decide ((s.tickCount.val + k + 1) % 8 = 0)

/-- R250, R251 (the points left open are the spec's decision D18, log 18): the wall-clock sequencer's answer. -/
def Obligations.WallClockSequencerAnswers : Prop :=
  ∀ (s : State) (now : Nat), s.settings.timerMode = .wallClock → (nowUs s.clock).1 = now →
    (now < s.lastUs →
      shouldTick s = (false, { s with clock := (nowUs s.clock).2, lastUs := now })) ∧
    (s.lastUs ≤ now → s.accUs + (now - s.lastUs) < 16667 →
      shouldTick s = (false, { s with clock := (nowUs s.clock).2, lastUs := now,
                                      accUs := s.accUs + (now - s.lastUs) })) ∧
    (s.lastUs ≤ now → 16667 ≤ s.accUs + (now - s.lastUs) →
      shouldTick s = (true, { s with clock := (nowUs s.clock).2, lastUs := now,
                                     accUs := s.accUs + (now - s.lastUs) - 16667 }))

/-- R296, R250: over readings that never run backward no time is lost: ticks times the period plus the residual is the
time elapsed plus what had been accumulated. -/
def Obligations.WallClockLosesNoTime : Prop :=
  ∀ (readings : List Nat) (last acc : Nat), (last :: readings).Pairwise (· ≤ ·) →
    (clockRun readings last acc).1 * 16667 + (clockRun readings last acc).2.2 =
      acc + ((clockRun readings last acc).2.1 - last)

/-! ### The instructions' results -/

/-- R130. -/
def Obligations.JumpGoesToItsAddress : Prop :=
  ∀ (nnn : Addr) (s : State), exec (.jump nnn) s = .next { s with pc := nnn }

/-- R131 (the Fault policy is the spec's D16). -/
def Obligations.CallPushesItsOwnAddress : Prop :=
  ∀ (nnn : Addr) (s : State),
    (s.sp.val < 15 ∨ s.settings.stackPolicy = .wrap →
      exec (.callNNN nnn) s = .next { s with stack := s.stack.set s.sp.val s.pc, sp := s.sp + 1, pc := nnn }) ∧
    (s.sp = 15 → s.settings.stackPolicy = .fault →
      exec (.callNNN nnn) s = .next { s with status := .halted (.contractViolation .stackOverflow) })

/-- R132: pop modulo 16, then advance past the call; the two errors, where and with what written (the advance's: D7). -/
def Obligations.ReturnPopsAndAdvances : Prop :=
  ∀ s : State,
    (0 < s.sp.val ∨ s.settings.stackPolicy = .wrap → ∀ k : Fin 16, k.val = (s.sp.val + 15) % 16 →
      ((s.stack[k.val]).toNat ≤ 0xFFD → exec .ret s = .next { s with sp := k, pc := s.stack[k.val] + 2 }) ∧
      (0xFFE ≤ (s.stack[k.val]).toNat →
        exec .ret s = .next { s with sp := k, pc := s.stack[k.val], status := addressRange })) ∧
    (s.sp = 0 → s.settings.stackPolicy = .fault →
      exec .ret s = .next { s with status := .halted (.contractViolation .stackUnderflow) })

/-- R133: always V0 (the raise above 0xFFF is the spec's decision D9, log 12). -/
def Obligations.JumpV0AddsRegisterZero : Prop :=
  ∀ (nnn : Addr) (s : State),
    (nnn.toNat + (s.v[0]).toNat ≤ 0xFFF →
      exec (.jumpV0 nnn) s = .next { s with pc := BitVec.ofNat 12 (nnn.toNat + (s.v[0]).toNat) }) ∧
    (0xFFF < nnn.toNat + (s.v[0]).toNat → exec (.jumpV0 nnn) s = .next { s with status := addressRange })

/-- R140 to R144 (the advance's error: D7, log 12). -/
def Obligations.ConditionalSkipsFollowThePattern : Prop :=
  ∀ (x y : Reg) (nn : Byte) (s : State),
    Skips (decide (s.v[x.val] = nn)) s (exec (.skipEqXNN x nn) s) ∧
    Skips (decide (s.v[x.val] ≠ nn)) s (exec (.skipNeXNN x nn) s) ∧
    Skips (decide (s.v[x.val] = s.v[y.val])) s (exec (.skipEqXY x y) s) ∧
    Skips (decide (s.v[x.val] ≠ s.v[y.val])) s (exec (.skipNeXY x y) s)

/-- R150 to R153 (no flag of `AddXNN`: D14, log 14; `StoreINNN` is the spec's general knowledge, log 23). -/
def Obligations.DataMovesWriteTheirTarget : Prop :=
  ∀ (x y : Reg) (nn : Byte) (nnn : Addr),
    Completes (.storeXNN x nn) (fun s => { s with v := putReg s x nn.toNat }) ∧
    Completes (.addXNN x nn) (fun s => { s with v := putReg s x (((s.v[x.val]).toNat + nn.toNat) % 256) }) ∧
    Completes (.storeXY x y) (fun s => { s with v := putReg s x (s.v[y.val]).toNat }) ∧
    Completes (.storeINNN nnn) (fun s => { s with i := BitVec.ofNat 16 nnn.toNat })

/-- R163 to R165 (no flag: D14, log 14). -/
def Obligations.LogicWritesNoFlag : Prop :=
  ∀ x y : Reg,
    Completes (.or x y) (fun s => { s with v := putReg s x ((s.v[x.val]).toNat ||| (s.v[y.val]).toNat) }) ∧
    Completes (.and x y) (fun s => { s with v := putReg s x ((s.v[x.val]).toNat &&& (s.v[y.val]).toNat) }) ∧
    Completes (.xor x y) (fun s => { s with v := putReg s x ((s.v[x.val]).toNat ^^^ (s.v[y.val]).toNat) })

/-- R166 (with `x = 15` the flag remains: D13, log 11). -/
def Obligations.AddXYWritesSumAndCarry : Prop :=
  ∀ x y : Reg,
    Completes (.addXY x y) (fun s =>
      let sum := (s.v[x.val]).toNat + (s.v[y.val]).toNat
      { s with v := putRegFlag s x (sum % 256) (if sum > 255 then 1 else 0) })

/-- R167, R169 (with `x = 15` the flag remains: D13, log 11). -/
def Obligations.SubtractionsWriteDifferenceAndNoBorrow : Prop :=
  ∀ x y : Reg,
    Completes (.sub x y) (fun s =>
      let a := (s.v[x.val]).toNat
      let b := (s.v[y.val]).toNat
      { s with v := putRegFlag s x (if a ≥ b then a - b else a + 256 - b) (if a ≥ b then 1 else 0) }) ∧
    Completes (.subReverse x y) (fun s =>
      let a := (s.v[x.val]).toNat
      let b := (s.v[y.val]).toNat
      { s with v := putRegFlag s x (if b ≥ a then b - a else b + 256 - a) (if b ≥ a then 1 else 0) })

/-- R168, R170, R171 (with `x = 15` the flag remains: D13, log 11; `V[y]` in one-register mode: D15, log 15). -/
def Obligations.ShiftsWriteTheBitShiftedOut : Prop :=
  ∀ x y : Reg,
    Completes (.shr x y) (fun s =>
      { s with v := putRegFlag s x (shiftSource s x y / 2) (shiftSource s x y % 2) }) ∧
    Completes (.shl x y) (fun s =>
      { s with v := putRegFlag s x (shiftSource s x y * 2 % 256) (shiftSource s x y / 128) })

/-- R180, R181: one byte is drawn, whatever the mask, and no bit outside the mask is set. R182 (the reference device is
D21, log 29): the reference device answers `SEQ[IDX]` and goes on to the next index, from the start after the last. -/
def Obligations.RandomMasksOneDrawnByte : Prop :=
  (∀ (x : Reg) (nn : Byte),
    Completes (.random x nn) (fun s =>
      { s with random := s.random.next.2, v := s.v.set x.val (s.random.next.1 &&& nn) }) ∧
    ∀ s t : State, exec (.random x nn) s = .next t → t.v[x.val] &&& ~~~nn = 0) ∧
  ∀ (r : RefRandom) (h : r.idx < r.seq.length),
    (RandomSource.reference r).next = (r.seq[r.idx], .reference { r with idx := (r.idx + 1) % r.seq.length })

/-- R191 (the reference display's clear: R195). -/
def Obligations.ClearScreenCallsTheDisplay : Prop :=
  (∀ s : State,
    (s.display.clear.1 = .ok () →
      Advances s { s with display := s.display.clear.2 } (exec .clearScreen s)) ∧
    (s.display.clear.1 = .err →
      exec .clearScreen s = .next { s with display := s.display.clear.2,
                                           status := .halted (.ioError .displayClear) })) ∧
  ∀ d : RefDisplay, (Display.reference d).clear.1 = .ok () ∧
    ∃ d', (Display.reference d).clear.2 = .reference d' ∧ d'.width = d.width ∧ d'.height = d.height ∧
      ∀ r c, d'.pixel r c = false

/-- R192, R193: the bounds first, then the port, then VF; the coordinates are passed unreduced, the rows are the bytes
at `I` (the all-or-nothing bounds: D10, log 13). R195: the reference display never fails; its answer and the device after
it are those of `RefDisplay.draw`, of which `DrawFlipsThePixelsHit` speaks. -/
def Obligations.DrawSendsTheSpriteAndSetsVF : Prop :=
  (∀ (x y : Reg) (n : Nibble) (s : State),
    (0xFFF < s.i.toNat ∨ 0x1000 < s.i.toNat + n.toNat →
      exec (.drawXYN x y n) s = .next { s with status := .halted (.contractViolation .bounds) }) ∧
    (s.i.toNat ≤ 0xFFF → s.i.toNat + n.toNat ≤ 0x1000 →
      let rows := (List.range n.toNat).map fun k => s.mem.read (s.i.toNat + k)
      let drawn := s.display.draw s.v[x.val] s.v[y.val] rows
      (drawn.1 = .err → exec (.drawXYN x y n) s =
        .next { s with display := drawn.2, status := .halted (.ioError .displayDraw) }) ∧
      ∀ hit, drawn.1 = .ok hit →
        Advances s { s with display := drawn.2, v := s.v.set 15 (if hit then 1 else 0) } (exec (.drawXYN x y n) s))) ∧
  ∀ (d : RefDisplay) (px py : Byte) (rows : List Byte),
    ((Display.reference d).draw px py rows).1 = .ok (d.draw px py rows).1 ∧
    ((Display.reference d).draw px py rows).2 = .reference (d.draw px py rows).2

/-- R210, R211, R216, R40: a key number above 15 raises before the port is asked (D17, log 16); a failure raises; an
answer is the state of the key at the call, and the skip follows it. -/
def Obligations.KeySkipsFollowTheKeyState : Prop :=
  ∀ (x : Reg) (s : State),
    (15 < (s.v[x.val]).toNat →
      exec (.skipPressedX x) s = .next { s with status := .halted (.contractViolation .keyIndex) } ∧
      exec (.skipNotPressedX x) s = .next { s with status := .halted (.contractViolation .keyIndex) }) ∧
    (∀ k : Fin 16, (s.v[x.val]).toNat = k.val →
      let asked := s.keypad.isPressed k
      (asked.1 = .err →
        exec (.skipPressedX x) s = .next { s with keypad := asked.2, status := .halted (.ioError .keyQuery) } ∧
        exec (.skipNotPressedX x) s = .next { s with keypad := asked.2, status := .halted (.ioError .keyQuery) }) ∧
      ∀ pressed, asked.1 = .ok pressed → asked.2.keys[k.val] = pressed ∧
        Skips pressed { s with keypad := asked.2 } (exec (.skipPressedX x) s) ∧
        Skips (!pressed) { s with keypad := asked.2 } (exec (.skipNotPressedX x) s))

/-- R212, R120, R295 (the hold is D23; the key into VX and the advance are the spec's general knowledge, log 23; the answer
as an operation is the model's, log 2; that a failure clears the registration is the model's choice, log 28): the request
is registered; what the port has at once settles it: a key into VX,
or the raise; with no answer yet the engine is held at the instruction, and a key that comes later completes the same step
as one that comes at once. -/
def Obligations.WaitKeyHoldsUntilTheAnswer : Prop :=
  ∀ (x : Reg) (s : State),
    let asked := s.keypad.blockForKey
    let settled (k : Fin 16) : State :=
      { s with keypad := { asked.2 with pending := false }, status := .running, v := putReg s x k.val }
    asked.2.pending = true ∧ asked.2.keys = s.keypad.keys ∧
    (asked.1 = .waiting → exec (.waitKeyX x) s = .next { s with keypad := asked.2, status := .held x } ∧
      ∀ (t : State) (k : Fin 16), exec (.waitKeyX x) s = .next t →
        Advances s (settled k) (.next (t.answerKey (.key k)))) ∧
    (asked.1 = .err → exec (.waitKeyX x) s =
      .next { s with keypad := { asked.2 with pending := false }, status := .halted (.ioError .keyWait) }) ∧
    ∀ k : Fin 16, asked.1 = .key k → Advances s (settled k) (exec (.waitKeyX x) s)

/-- R213 to R215 (which word is which instruction is the spec's general knowledge, log 23). -/
def Obligations.TimerMovesCopyTheTimers : Prop :=
  ∀ x : Reg,
    Completes (.readDelayX x) (fun s => { s with v := putReg s x s.dt.toNat }) ∧
    Completes (.setDelayX x) (fun s => { s with dt := s.v[x.val] }) ∧
    Completes (.setSoundX x) (fun s => { s with st := s.v[x.val] })

/-- R200, R201, R51 (`I` wraps: D11, log 14; no flag: D14). -/
def Obligations.IndexInstructionsSetI : Prop :=
  ∀ x : Reg,
    Completes (.addIX x) (fun s => { s with i := BitVec.ofNat 16 ((s.i.toNat + (s.v[x.val]).toNat) % 65536) }) ∧
    ∀ s : State,
      ((s.v[x.val]).toNat ≤ 15 →
        Advances s { s with i := BitVec.ofNat 16 (5 * (s.v[x.val]).toNat) } (exec (.storeSpriteX x) s)) ∧
      (15 < (s.v[x.val]).toNat →
        exec (.storeSpriteX x) s = .next { s with status := .halted (.contractViolation .spriteDigit) })

/-- R202, R52: three bytes, hundreds first, or nothing at all (D10, log 13). The canonical form of memory is the
premise; it is an invariant (`StepKeepsTheInvariant`). -/
def Obligations.StoreDecimalWritesThreeDigits : Prop :=
  ∀ (x : Reg) (s : State), s.mem.wf = true →
    (0xFFD < s.i.toNat →
      exec (.storeDecimal x) s = .next { s with status := .halted (.contractViolation .bounds) }) ∧
    (s.i.toNat ≤ 0xFFD → ∃ mem : Memory, Advances s { s with mem := mem } (exec (.storeDecimal x) s) ∧
      (mem.read s.i.toNat).toNat = (s.v[x.val]).toNat / 100 ∧
      (mem.read (s.i.toNat + 1)).toNat = (s.v[x.val]).toNat / 10 % 10 ∧
      (mem.read (s.i.toNat + 2)).toNat = (s.v[x.val]).toNat % 10 ∧
      ∀ a, a < s.i.toNat ∨ s.i.toNat + 3 ≤ a → mem.read a = s.mem.read a)

/-- R203, R206, R52, R56: `V[k]` to `I + k`, then `I` by the mode; or nothing at all (D10, log 13). -/
def Obligations.WriteToMemoryStoresTheRegisters : Prop :=
  ∀ (x : Reg) (s : State), s.mem.wf = true →
    (0xFFF < s.i.toNat + x.val →
      exec (.writeToMemory x) s = .next { s with status := .halted (.contractViolation .bounds) }) ∧
    (s.i.toNat + x.val ≤ 0xFFF → ∃ mem : Memory,
      Advances s { s with mem := mem, i := indexAfterBulk s x } (exec (.writeToMemory x) s) ∧
      (∀ k : Fin 16, k.val ≤ x.val → mem.read (s.i.toNat + k.val) = s.v[k.val]) ∧
      ∀ a, a < s.i.toNat ∨ s.i.toNat + x.val + 1 ≤ a → mem.read a = s.mem.read a)

/-- R204, R206, R52, R56: `V[k]` from `I + k`, the registers above unchanged; or nothing at all (D10, log 13). -/
def Obligations.ReadFromMemoryLoadsTheRegisters : Prop :=
  ∀ (x : Reg) (s : State),
    (0xFFF < s.i.toNat + x.val →
      exec (.readFromMemory x) s = .next { s with status := .halted (.contractViolation .bounds) }) ∧
    (s.i.toNat + x.val ≤ 0xFFF → ∃ v : Vector Byte 16,
      Advances s { s with v := v, i := indexAfterBulk s x } (exec (.readFromMemory x) s) ∧
      ∀ k : Fin 16, v[k.val] = if k.val ≤ x.val then s.mem.read (s.i.toNat + k.val) else s.v[k.val])

/-! ### Frames -/

/-- R21, R26, R119: no instruction changes a register but those it may write, VF among them only where it defines a
flag (D14 where the document states none). -/
def Obligations.OnlyNamedRegistersChange : Prop :=
  ∀ (i : Instr) (s t : State), exec i s = .next t → ∀ r : Reg, mayWrite i r = false → t.reg r = s.reg r

/-- R59: an instruction changes no byte of memory outside the bytes it stores to, which start at `I`; an instruction that
stores nothing changes none. -/
def Obligations.OnlyStoredBytesChange : Prop :=
  ∀ (i : Instr) (s t : State), exec i s = .next t →
    ∀ a, a < (storedBytes s i).1 ∨ (storedBytes s i).1 + (storedBytes s i).2 ≤ a → t.mem.read a = s.mem.read a

/-- R119, R28, R29, R31, R34, R254: every register that is not general, and every device, changes only by the
instructions that name it; the sequencer's state, the settings, the parameter FONT of the reset contents (log 24; not the
bytes of the font region, which can be stored to, R53) and the clock by none. -/
def Obligations.SpecialStateChangesOnlyWhereNamed : Prop :=
  ∀ (i : Instr) (s t : State), exec i s = .next t →
    (writesIndex i = false → t.i = s.i) ∧
    (usesStack i = false → t.sp = s.sp ∧ t.stack = s.stack) ∧
    ((∀ x, i ≠ .setDelayX x) → t.dt = s.dt) ∧ ((∀ x, i ≠ .setSoundX x) → t.st = s.st) ∧
    ((∀ x nn, i ≠ .random x nn) → t.random = s.random) ∧
    (i ≠ .clearScreen → (∀ x y n, i ≠ .drawXYN x y n) → t.display = s.display) ∧
    ((∀ x, i ≠ .skipPressedX x) → (∀ x, i ≠ .skipNotPressedX x) → (∀ x, i ≠ .waitKeyX x) → t.keypad = s.keypad) ∧
    t.tickCount = s.tickCount ∧ t.accUs = s.accUs ∧ t.lastUs = s.lastUs ∧ t.clock = s.clock ∧
    t.settings = s.settings ∧ t.mem.font = s.mem.font ∧ t.reports = s.reports

/-- R234, R116: from a running machine an instruction leaves it running, or held by `WaitKeyX`, or halted by one of the
errors the table gives that instruction. -/
def Obligations.InstructionsRaiseOnlyTheirErrors : Prop :=
  ∀ (i : Instr) (s t : State), s.status = .running → exec i s = .next t →
    t.status = .running ∨ (∃ x, i = .waitKeyX x ∧ t.status = .held x) ∨
    ∃ c, t.status = .halted c ∧ mayRaise i c = true

/-- R242: an instruction that raises anything but the final `AddressRange` has changed no register and no byte (the
devices it called aside). -/
def Obligations.ChecksComeBeforeWrites : Prop :=
  ∀ (i : Instr) (s t : State) (c : Cause), s.status = .running → exec i s = .next t → t.status = .halted c →
    c ≠ .contractViolation .addressRange →
    t.v = s.v ∧ t.i = s.i ∧ t.pc = s.pc ∧ t.sp = s.sp ∧ t.stack = s.stack ∧ t.dt = s.dt ∧ t.st = s.st ∧ t.mem = s.mem

/-- R26: after an instruction that defines a flag, unless it has raised before writing it, VF is 0 or 1. -/
def Obligations.FlagWritersLeaveZeroOrOne : Prop :=
  ∀ (x y : Reg) (n : Nibble) (s t : State) (i : Instr), s.status = .running →
    t.status = .running ∨ t.status = addressRange →
    i ∈ [.addXY x y, .sub x y, .subReverse x y, .shr x y, .shl x y, .drawXYN x y n] → exec i s = .next t →
    t.reg 15 = 0 ∨ t.reg 15 = 1

/-- R254, R215: nothing reads `ST`: two machines that differ only in `ST` do the same, and differ only in `ST` after. -/
def Obligations.NothingReadsTheSoundTimer : Prop :=
  ∀ (i : Instr) (s t : State) (b : Byte), exec i s = .next t →
    ∃ b', exec i { s with st := b } = .next { t with st := b' }

/-! ### Rules of the whole machine -/

/-- The model's invariant (Safety.lean: canonical memory, devices in range, a key request pending exactly while held, a
held machine standing at its `WaitKeyX`) is kept by every step. -/
def Obligations.StepKeepsTheInvariant : Prop := ∀ s t : State, s.Inv → step s = .next t → t.Inv

/-- R119, R34: the settings never change, nor does the parameter FONT of the reset contents that State carries (log 24;
the BYTES of the font region can be stored to, R53: of those this says nothing); `SP` and `STACK` change only in a call or
a return. -/
def Obligations.StepKeepsSettingsAndStack : Prop :=
  ∀ s t : State, step s = .next t →
    t.settings = s.settings ∧ t.mem.font = s.mem.font ∧
    ((∀ (w : Word) (i : Instr), fetchWord s = some w → decode w = .ok i → usesStack i = false) →
      t.sp = s.sp ∧ t.stack = s.stack)

/-- R25: a step that executes no jump, call or return keeps an even `PC` even. -/
def Obligations.StraightLineCodeKeepsPCEven : Prop :=
  ∀ s t : State, step s = .next t →
    (∀ (w : Word) (i : Instr), fetchWord s = some w → decode w = .ok i → isTransfer i = false) →
    s.pc.toNat % 2 = 0 → t.pc.toNat % 2 = 0

/-- R134, R131 (corner case 2): under `Wrap`, up to sixteen nested calls are unwound by as many returns: `SP` is back and
`PC` is just past the first call. -/
def Obligations.SixteenNestedCallsUnwind : Prop :=
  ∀ (s : State) (targets : List Addr), s.settings.stackPolicy = .wrap → targets ≠ [] → targets.length ≤ 16 →
    s.pc.toNat ≤ 0xFFD → (∀ a ∈ targets.dropLast, a.toNat ≤ 0xFFD) →
    let back := returnAll targets.length (callAll targets s)
    back.sp = s.sp ∧ back.pc = s.pc + 2 ∧ back.v = s.v ∧ back.mem = s.mem ∧ back.status = s.status

/-- R61, R65, R69: bytes written in order read back, every other byte as before. -/
def Obligations.WrittenBytesReadBack : Prop :=
  ∀ (m : Memory) (a : Nat) (bs : List Byte), m.wf = true →
    (∀ k, ∀ h : k < bs.length, (m.writeBytes a bs).read (a + k) = bs[k]) ∧
    ∀ b, b < a ∨ a + bs.length ≤ b → (m.writeBytes a bs).read b = m.read b

/-- R69, R291: a word a program stores just past its `WriteToMemory` is what the next step fetches. -/
def Obligations.AStoreIsSeenByTheNextFetch : Prop :=
  ∀ (x : Reg) (s t : State), s.mem.wf = true → 1 ≤ x.val → s.pc.toNat ≤ 0xFFC → s.i.toNat = s.pc.toNat + 2 →
    s.i.toNat + x.val ≤ 0xFFF → exec (.writeToMemory x) s = .next t →
    fetchWord t = some (BitVec.ofNat 16 ((s.v[0]).toNat * 256 + (s.v[1]).toNat))

/-- The model's memory (log 24): in canonical form, two memories over one font that read alike are the same data. -/
def Obligations.MemoriesThatReadAlikeAreEqual : Prop :=
  ∀ m m' : Memory, m.wf = true → m'.wf = true → m.font = m'.font → (∀ a, a < 0x1000 → m.read a = m'.read a) → m = m'

/-- R207: under `NoAdvance` a store of `V[0]` to `V[x]` followed at once by the load restores the registers. -/
def Obligations.BulkStoreThenLoadRestores : Prop :=
  ∀ (x : Reg) (s t u : State), s.mem.wf = true → s.settings.memoryMode = .noAdvance → s.status = .running →
    exec (.writeToMemory x) s = .next t → t.status = .running → exec (.readFromMemory x) t = .next u →
    u.v = s.v ∧ u.i = s.i ∧ u.mem = t.mem

/-- R208, R51: after reset with any font, `StoreSpriteX` of a digit and `ReadFromMemory{4}` load that digit's sprite. -/
def Obligations.DigitSpriteIsReadBack : Prop :=
  ∀ (settings : Settings) (devices : Devices) (font : Font) (x : Reg) (d : Fin 16) (s t u : State),
    s = (State.resetWith settings devices font).setReg x (BitVec.ofNat 8 d.val) →
    exec (.storeSpriteX x) s = .next t → exec (.readFromMemory 4) t = .next u →
    ∀ r : Fin 5, u.v[r.val] = font[d.val][r.val]

/-- R194, R195, R198 (wrapping on both axes: D22, log 19): on the reference display, at least 8 wide and 15 high, a draw
of at most 15 rows flips exactly the pixels the sprite's 1 bits land on, and reports a collision iff one was lit. -/
def Obligations.DrawFlipsThePixelsHit : Prop :=
  ∀ (d : RefDisplay) (px py : Byte) (rows : List Byte), d.wf = true → 8 ≤ d.width → 15 ≤ d.height → rows.length ≤ 15 →
    (∀ row col, (hits d px py rows row col → (d.draw px py rows).2.pixel row col = !d.pixel row col) ∧
      (¬ hits d px py rows row col → (d.draw px py rows).2.pixel row col = d.pixel row col)) ∧
    ((d.draw px py rows).1 = true ↔ ∃ row col, hits d px py rows row col ∧ d.pixel row col = true)

/-- R197: on the reference display, of any size, drawing a sprite twice restores the pixels, and the second draw reports
a collision whenever the first has turned a pixel on. -/
def Obligations.DrawingTwiceRestores : Prop :=
  ∀ (d : RefDisplay) (px py : Byte) (rows : List Byte),
    let first := d.draw px py rows
    let second := first.2.draw px py rows
    second.2 = d ∧
    ((∃ row col, d.pixel row col = false ∧ first.2.pixel row col = true) → second.1 = true)

/-- R121, R123 (the end of a run is the spec's decision D29), R258, R295: a run with gas takes as many steps as it has used
gas, each with a next state, so it stops in no fault and keeps its end state; it ends with a halt and its cause, or with
its gas spent, or hangs in a key wait, which has cost it one step; a machine that has halted takes no more of it. A run to
completion ends halted, and in the same state with any more gas. The model's choice (logs 31 and 2): that a run comes back
from a key wait without an answer with the gas it has left, and that a run to completion stops at one. -/
def Obligations.ARunEndsHaltedOrWithItsGasOrHangs : Prop :=
  (∀ (gas : Nat) (s : State),
    let r := s.runGas gas
    r.2 ≤ gas ∧ core.run (gas - r.2) s = .next r.1 ∧
    (r.1.runEnd = .gasSpent → r.1.status = .running ∧ r.2 = 0) ∧
    (∀ c, r.1.runEnd = .halted c ↔ r.1.status = .halted c) ∧
    (∀ x, r.1.runEnd = .hanging x ↔ r.1.status = .held x) ∧
    (∀ c, s.status = .halted c → r = (s, gas)) ∧
    ∀ t x, 1 ≤ gas → step s = .next t → t.status = .held x → r = (t, gas - 1)) ∧
  ∀ s t : State, s.RunsToCompletion t →
    (∃ c, t.status = .halted c) ∧ ∃ n, ∀ gas, n ≤ gas → (s.runGas gas).1 = t
end

