-- ==== Sys2Proof/Laws/State.lean ====
section
/-! SUPPORT. The small lemmas of the named state updates, one per field, so that no proof unfolds a record update. -/

namespace Sys2Proof.Machine

section setReg
variable (s : State) (x : Reg) (b : Byte)

@[simp] theorem setReg_v : (s.setReg x b).v = s.v.set x.val b := rfl
@[simp] theorem setReg_i : (s.setReg x b).i = s.i := rfl
@[simp] theorem setReg_pc : (s.setReg x b).pc = s.pc := rfl
@[simp] theorem setReg_sp : (s.setReg x b).sp = s.sp := rfl
@[simp] theorem setReg_stack : (s.setReg x b).stack = s.stack := rfl
@[simp] theorem setReg_dt : (s.setReg x b).dt = s.dt := rfl
@[simp] theorem setReg_st : (s.setReg x b).st = s.st := rfl
@[simp] theorem setReg_mem : (s.setReg x b).mem = s.mem := rfl
@[simp] theorem setReg_status : (s.setReg x b).status = s.status := rfl
@[simp] theorem setReg_tickCount : (s.setReg x b).tickCount = s.tickCount := rfl
@[simp] theorem setReg_accUs : (s.setReg x b).accUs = s.accUs := rfl
@[simp] theorem setReg_lastUs : (s.setReg x b).lastUs = s.lastUs := rfl
@[simp] theorem setReg_settings : (s.setReg x b).settings = s.settings := rfl
@[simp] theorem setReg_display : (s.setReg x b).display = s.display := rfl
@[simp] theorem setReg_keypad : (s.setReg x b).keypad = s.keypad := rfl
@[simp] theorem setReg_random : (s.setReg x b).random = s.random := rfl
@[simp] theorem setReg_clock : (s.setReg x b).clock = s.clock := rfl
@[simp] theorem setReg_reports : (s.setReg x b).reports = s.reports := rfl

/-- Reading a register after one is written (R20). -/
theorem reg_setReg (y : Reg) : (s.setReg x b).reg y = if y = x then b else s.reg y := by
  unfold State.reg State.setReg
  simp only [Vector.getElem_set, Fin.ext_iff, eq_comm (a := x.val)]

end setReg

section raise
variable (c : Cause) (s : State)

@[simp] theorem raise_v : (raise c s).v = s.v := rfl
@[simp] theorem raise_reg (y : Reg) : (raise c s).reg y = s.reg y := rfl
@[simp] theorem raise_i : (raise c s).i = s.i := rfl
@[simp] theorem raise_pc : (raise c s).pc = s.pc := rfl
@[simp] theorem raise_sp : (raise c s).sp = s.sp := rfl
@[simp] theorem raise_stack : (raise c s).stack = s.stack := rfl
@[simp] theorem raise_dt : (raise c s).dt = s.dt := rfl
@[simp] theorem raise_st : (raise c s).st = s.st := rfl
@[simp] theorem raise_mem : (raise c s).mem = s.mem := rfl
@[simp] theorem raise_status : (raise c s).status = .halted c := rfl
@[simp] theorem raise_tickCount : (raise c s).tickCount = s.tickCount := rfl
@[simp] theorem raise_accUs : (raise c s).accUs = s.accUs := rfl
@[simp] theorem raise_lastUs : (raise c s).lastUs = s.lastUs := rfl
@[simp] theorem raise_settings : (raise c s).settings = s.settings := rfl
@[simp] theorem raise_display : (raise c s).display = s.display := rfl
@[simp] theorem raise_keypad : (raise c s).keypad = s.keypad := rfl
@[simp] theorem raise_random : (raise c s).random = s.random := rfl
@[simp] theorem raise_clock : (raise c s).clock = s.clock := rfl
@[simp] theorem raise_reports : (raise c s).reports = s.reports := rfl

end raise

/-- The tick changes the two timers and nothing else. -/
theorem tickTimers_eq (s : State) :
    tickTimers s = { s with dt := if s.dt = 0 then 0 else s.dt - 1, st := if s.st = 0 then 0 else s.st - 1 } := rfl

end Sys2Proof.Machine
end

