-- ==== Sys2Proof/Laws/PerInstr.lean ====
section
/-! SUPPORT. Facts of every instruction as syntax, one lemma per constructor. `EncodeSelectsRow`: the word an instruction
encodes to selects the instruction's own row of the opcode table (30_encoding.md R89, R90). -/

namespace Sys2Proof.Laws

/-- The encoded word selects the instruction's row. -/
def EncodeSelectsRow.Statement (i : Instr) : Prop := i.op.row.selects (encode i) = true

theorem EncodeSelectsRow.clearScreen : EncodeSelectsRow.Statement .clearScreen := by
  unfold EncodeSelectsRow.Statement; decide

theorem EncodeSelectsRow.ret : EncodeSelectsRow.Statement .ret := by
  unfold EncodeSelectsRow.Statement; decide

theorem EncodeSelectsRow.jump (nnn : Addr) : EncodeSelectsRow.Statement (.jump nnn) := by
  revert nnn; unfold EncodeSelectsRow.Statement; decide +kernel

theorem EncodeSelectsRow.callNNN (nnn : Addr) : EncodeSelectsRow.Statement (.callNNN nnn) := by
  revert nnn; unfold EncodeSelectsRow.Statement; decide +kernel

theorem EncodeSelectsRow.skipEqXNN (x : Reg) (nn : Byte) : EncodeSelectsRow.Statement (.skipEqXNN x nn) := by
  revert x nn; unfold EncodeSelectsRow.Statement; decide +kernel

theorem EncodeSelectsRow.skipNeXNN (x : Reg) (nn : Byte) : EncodeSelectsRow.Statement (.skipNeXNN x nn) := by
  revert x nn; unfold EncodeSelectsRow.Statement; decide +kernel

theorem EncodeSelectsRow.skipEqXY (x : Reg) (y : Reg) : EncodeSelectsRow.Statement (.skipEqXY x y) := by
  revert x y; unfold EncodeSelectsRow.Statement; decide +kernel

theorem EncodeSelectsRow.storeXNN (x : Reg) (nn : Byte) : EncodeSelectsRow.Statement (.storeXNN x nn) := by
  revert x nn; unfold EncodeSelectsRow.Statement; decide +kernel

theorem EncodeSelectsRow.addXNN (x : Reg) (nn : Byte) : EncodeSelectsRow.Statement (.addXNN x nn) := by
  revert x nn; unfold EncodeSelectsRow.Statement; decide +kernel

theorem EncodeSelectsRow.storeXY (x : Reg) (y : Reg) : EncodeSelectsRow.Statement (.storeXY x y) := by
  revert x y; unfold EncodeSelectsRow.Statement; decide +kernel

theorem EncodeSelectsRow.or (x : Reg) (y : Reg) : EncodeSelectsRow.Statement (.or x y) := by
  revert x y; unfold EncodeSelectsRow.Statement; decide +kernel

theorem EncodeSelectsRow.and (x : Reg) (y : Reg) : EncodeSelectsRow.Statement (.and x y) := by
  revert x y; unfold EncodeSelectsRow.Statement; decide +kernel

theorem EncodeSelectsRow.xor (x : Reg) (y : Reg) : EncodeSelectsRow.Statement (.xor x y) := by
  revert x y; unfold EncodeSelectsRow.Statement; decide +kernel

theorem EncodeSelectsRow.addXY (x : Reg) (y : Reg) : EncodeSelectsRow.Statement (.addXY x y) := by
  revert x y; unfold EncodeSelectsRow.Statement; decide +kernel

theorem EncodeSelectsRow.sub (x : Reg) (y : Reg) : EncodeSelectsRow.Statement (.sub x y) := by
  revert x y; unfold EncodeSelectsRow.Statement; decide +kernel

theorem EncodeSelectsRow.shr (x : Reg) (y : Reg) : EncodeSelectsRow.Statement (.shr x y) := by
  revert x y; unfold EncodeSelectsRow.Statement; decide +kernel

theorem EncodeSelectsRow.subReverse (x : Reg) (y : Reg) : EncodeSelectsRow.Statement (.subReverse x y) := by
  revert x y; unfold EncodeSelectsRow.Statement; decide +kernel

theorem EncodeSelectsRow.shl (x : Reg) (y : Reg) : EncodeSelectsRow.Statement (.shl x y) := by
  revert x y; unfold EncodeSelectsRow.Statement; decide +kernel

theorem EncodeSelectsRow.skipNeXY (x : Reg) (y : Reg) : EncodeSelectsRow.Statement (.skipNeXY x y) := by
  revert x y; unfold EncodeSelectsRow.Statement; decide +kernel

theorem EncodeSelectsRow.storeINNN (nnn : Addr) : EncodeSelectsRow.Statement (.storeINNN nnn) := by
  revert nnn; unfold EncodeSelectsRow.Statement; decide +kernel

theorem EncodeSelectsRow.jumpV0 (nnn : Addr) : EncodeSelectsRow.Statement (.jumpV0 nnn) := by
  revert nnn; unfold EncodeSelectsRow.Statement; decide +kernel

theorem EncodeSelectsRow.random (x : Reg) (nn : Byte) : EncodeSelectsRow.Statement (.random x nn) := by
  revert x nn; unfold EncodeSelectsRow.Statement; decide +kernel

theorem EncodeSelectsRow.drawXYN (x : Reg) (y : Reg) (n : Nibble) : EncodeSelectsRow.Statement (.drawXYN x y n) := by
  revert x y n; unfold EncodeSelectsRow.Statement; decide +kernel

theorem EncodeSelectsRow.skipPressedX (x : Reg) : EncodeSelectsRow.Statement (.skipPressedX x) := by
  revert x; unfold EncodeSelectsRow.Statement; decide +kernel

theorem EncodeSelectsRow.skipNotPressedX (x : Reg) : EncodeSelectsRow.Statement (.skipNotPressedX x) := by
  revert x; unfold EncodeSelectsRow.Statement; decide +kernel

theorem EncodeSelectsRow.readDelayX (x : Reg) : EncodeSelectsRow.Statement (.readDelayX x) := by
  revert x; unfold EncodeSelectsRow.Statement; decide +kernel

theorem EncodeSelectsRow.waitKeyX (x : Reg) : EncodeSelectsRow.Statement (.waitKeyX x) := by
  revert x; unfold EncodeSelectsRow.Statement; decide +kernel

theorem EncodeSelectsRow.setDelayX (x : Reg) : EncodeSelectsRow.Statement (.setDelayX x) := by
  revert x; unfold EncodeSelectsRow.Statement; decide +kernel

theorem EncodeSelectsRow.setSoundX (x : Reg) : EncodeSelectsRow.Statement (.setSoundX x) := by
  revert x; unfold EncodeSelectsRow.Statement; decide +kernel

theorem EncodeSelectsRow.addIX (x : Reg) : EncodeSelectsRow.Statement (.addIX x) := by
  revert x; unfold EncodeSelectsRow.Statement; decide +kernel

theorem EncodeSelectsRow.storeSpriteX (x : Reg) : EncodeSelectsRow.Statement (.storeSpriteX x) := by
  revert x; unfold EncodeSelectsRow.Statement; decide +kernel

theorem EncodeSelectsRow.storeDecimal (x : Reg) : EncodeSelectsRow.Statement (.storeDecimal x) := by
  revert x; unfold EncodeSelectsRow.Statement; decide +kernel

theorem EncodeSelectsRow.writeToMemory (x : Reg) : EncodeSelectsRow.Statement (.writeToMemory x) := by
  revert x; unfold EncodeSelectsRow.Statement; decide +kernel

theorem EncodeSelectsRow.readFromMemory (x : Reg) : EncodeSelectsRow.Statement (.readFromMemory x) := by
  revert x; unfold EncodeSelectsRow.Statement; decide +kernel

end Sys2Proof.Laws
end

