-- ==== Sys2Proof/Laws/Decode.lean ====
section
/-! SUPPORT. The small lemmas of the codec: what a mask leaves of a word, the fields of a packed word, the bytes of a
word, and that the rows of the opcode table differ under their common mask. -/

namespace Sys2Proof

/-- Every row stands in the list the decoder goes through. -/
theorem op_mem_all (o : Op) : o ∈ Op.all := by cases o <;> decide

/-- Two rows of the table differ in a bit that both of them look at. -/
theorem rows_differ : ∀ o ∈ Op.all, ∀ p ∈ Op.all,
    o = p ∨ o.row.mask &&& p.row.mask &&& (o.row.pattern ^^^ p.row.pattern) ≠ 0 := by decide +kernel

/-- The instruction a row builds belongs to the row. -/
theorem op_build (o : Op) (w : Word) : (o.shape.build w).op = o := by cases o <;> rfl

/-- A word selects a row, said of numbers (R90). -/
theorem selects_iff (o : Op) (w : Word) :
    o.row.selects w = true ↔ w.toNat &&& o.row.mask.toNat = o.row.pattern.toNat := by
  simp only [Row.selects, beq_iff_eq, ← BitVec.toNat_inj, BitVec.toNat_and]

/-- The mask 0xF000 leaves the family nibble. -/
theorem and_familyMask (n : Nat) (h : n < 65536) : n &&& 0xF000 = n / 4096 * 4096 := by
  apply Nat.eq_of_testBit_eq
  intro i
  rw [Nat.testBit_and, show n / 4096 * 4096 = n / 2 ^ 12 * 2 ^ 12 from rfl, Nat.testBit_mul_two_pow,
    Nat.testBit_div_two_pow]
  by_cases h12 : 12 ≤ i
  · rw [Nat.sub_add_cancel h12]
    by_cases h16 : i < 16
    · obtain rfl | rfl | rfl | rfl : i = 12 ∨ i = 13 ∨ i = 14 ∨ i = 15 := by omega
      all_goals simp [Nat.testBit]
    · have : n.testBit i = false := Nat.testBit_lt_two_pow (lt_of_lt_of_le h (by
        calc 65536 = 2 ^ 16 := rfl
          _ ≤ 2 ^ i := Nat.pow_le_pow_right (by decide) (by omega)))
      simp [this]
  · simp only [h12, decide_false, Bool.false_and, Bool.and_eq_false_iff]
    exact .inr (by interval_cases i <;> decide)

/-- A mask of the family nibble and the low `k` bits leaves just those. -/
theorem and_rowMask (n k : Nat) (h : n < 65536) (hk : k ≤ 12) :
    n &&& (0xF000 ||| (2 ^ k - 1)) = n / 4096 * 4096 + n % 2 ^ k := by
  have hlow : n % 2 ^ k < 2 ^ 12 :=
    lt_of_lt_of_le (Nat.mod_lt _ (Nat.two_pow_pos _)) (Nat.pow_le_pow_right (by decide) hk)
  rw [Nat.and_or_distrib_left, and_familyMask n h, Nat.and_two_pow_sub_one_eq_mod,
    show n / 4096 * 4096 = 2 ^ 12 * (n / 4096) by omega, Nat.two_pow_add_eq_or_of_lt hlow]

theorem pack4_toNat (a b c d : Nat) :
    (pack4 a b c d).toNat = a % 16 * 4096 + b % 16 * 256 + c % 16 * 16 + d % 16 := by
  unfold pack4; rw [BitVec.toNat_ofNat]; omega

theorem pack12_toNat (a nnn : Nat) : (pack12 a nnn).toNat = a % 16 * 4096 + nnn % 4096 := by
  unfold pack12; rw [BitVec.toNat_ofNat]; omega

@[simp] theorem fieldX_pack4 (a b c d : Nat) : fieldX (pack4 a b c d) = Fin.ofNat 16 b := by
  apply Fin.ext; simp only [fieldX, bitsOf, pack4_toNat, Fin.ofNat]; omega

@[simp] theorem fieldY_pack4 (a b c d : Nat) : fieldY (pack4 a b c d) = Fin.ofNat 16 c := by
  apply Fin.ext; simp only [fieldY, bitsOf, pack4_toNat, Fin.ofNat]; omega

@[simp] theorem fieldN_pack4 (a b c d : Nat) : fieldN (pack4 a b c d) = BitVec.ofNat 4 d := by
  apply BitVec.eq_of_toNat_eq; simp only [fieldN, bitsOf, pack4_toNat, BitVec.toNat_ofNat]; omega

@[simp] theorem fieldNN_pack4 (a b c d : Nat) :
    fieldNN (pack4 a b c d) = BitVec.ofNat 8 (c % 16 * 16 + d % 16) := by
  apply BitVec.eq_of_toNat_eq; simp only [fieldNN, bitsOf, pack4_toNat, BitVec.toNat_ofNat]; omega

@[simp] theorem fieldNNN_pack12 (a nnn : Nat) : fieldNNN (pack12 a nnn) = BitVec.ofNat 12 nnn := by
  apply BitVec.eq_of_toNat_eq; simp only [fieldNNN, bitsOf, pack12_toNat, BitVec.toNat_ofNat]; omega

/-- A byte's two nibbles make the byte. -/
theorem byte_of_nibbles (b : Byte) : BitVec.ofNat 8 (b.toNat / 16 % 16 * 16 + b.toNat % 16) = b := by
  apply BitVec.eq_of_toNat_eq; have := b.isLt; rw [BitVec.toNat_ofNat]; omega

/-- The word of a word's bytes is the word (R55). -/
theorem wordOfBytes_bytesOfWord (w : Word) : wordOfBytes (bytesOfWord w).1 (bytesOfWord w).2 = w := by
  have := w.isLt
  apply BitVec.eq_of_toNat_eq
  simp only [wordOfBytes, bytesOfWord, BitVec.toNat_ofNat]; omega

/-- The bytes of the word of two bytes are the bytes (R55). -/
theorem bytesOfWord_wordOfBytes (b0 b1 : Byte) : bytesOfWord (wordOfBytes b0 b1) = (b0, b1) := by
  have := b0.isLt
  have := b1.isLt
  unfold wordOfBytes bytesOfWord
  ext1 <;> apply BitVec.eq_of_toNat_eq <;> simp only [BitVec.toNat_ofNat] <;> omega

end Sys2Proof
end

