-- ==== Sys2Proof/Laws/Memory.lean ====
section
/-! SUPPORT. Memory: what a byte reads as after a write, and that every memory operation keeps the canonical form. -/

namespace Sys2Proof.Machine

@[simp] theorem write_font (m : Memory) (a : Nat) (b : Byte) : (m.write a b).font = m.font := rfl

@[simp] theorem base_write (m : Memory) (a k : Nat) (b : Byte) : (m.write a b).base k = m.base k := rfl

@[simp] theorem writeBytes_font (m : Memory) (a : Nat) (bs : List Byte) : (m.writeBytes a bs).font = m.font := by
  induction bs generalizing m a with
  | nil => rfl
  | cons b bs ih => rw [Memory.writeBytes, ih, write_font]

/-- The addresses listed after a store: the stored one and old ones. -/
theorem storeCell_mem {base b : Byte} {a : Nat} {c : Host.Cell} {cs : List Host.Cell}
    (h : c ∈ storeCell base a b cs) : (c = (a, b) ∧ b ≠ base) ∨ c ∈ cs := by
  induction cs with
  | nil =>
    simp only [storeCell] at h
    split at h
    · simp at h
    · exact .inl ⟨by simpa using h, ‹_›⟩
  | cons d ds ih =>
    simp only [storeCell] at h
    split at h
    · rcases List.mem_cons.1 h with rfl | h
      · exact .inr (List.mem_cons_self ..)
      · exact (ih h).imp id (List.mem_cons_of_mem _)
    · split at h
      · split at h
        · exact .inr (List.mem_cons_of_mem _ h)
        · rcases List.mem_cons.1 h with rfl | h
          · exact .inl ⟨rfl, ‹_›⟩
          · exact .inr (List.mem_cons_of_mem _ h)
      · split at h
        · exact .inr h
        · rcases List.mem_cons.1 h with rfl | h
          · exact .inl ⟨rfl, ‹_›⟩
          · exact .inr h

/-- `cellsRise` in the library's form. -/
theorem cellsRise_iff (cs : List Host.Cell) : cellsRise cs = true ↔ cs.Pairwise fun c d => c.1 < d.1 := by
  induction cs with
  | nil => simp [cellsRise]
  | cons c cs ih =>
    cases cs with
    | nil => simp [cellsRise]
    | cons d ds =>
      simp only [cellsRise, Bool.and_eq_true, decide_eq_true_eq, ih, List.pairwise_cons, List.mem_cons]
      constructor
      · rintro ⟨hcd, hd, hp⟩
        refine ⟨?_, hd, hp⟩
        rintro e (rfl | he)
        · exact hcd
        · exact lt_trans hcd (hd e he)
      · rintro ⟨hc, hd, hp⟩
        exact ⟨hc d (.inl rfl), hd, hp⟩

/-- A store keeps the addresses strictly rising. -/
theorem storeCell_rise {base b : Byte} {a : Nat} {cs : List Host.Cell}
    (h : cs.Pairwise fun c d => c.1 < d.1) : (storeCell base a b cs).Pairwise fun c d => c.1 < d.1 := by
  induction cs with
  | nil => simp only [storeCell]; split <;> simp
  | cons d ds ih =>
    obtain ⟨hd, hds⟩ := List.pairwise_cons.1 h
    simp only [storeCell]
    split
    · refine List.pairwise_cons.2 ⟨fun e he => ?_, ih hds⟩
      rcases storeCell_mem he with ⟨rfl, -⟩ | he
      · assumption
      · exact hd e he
    · split
      · split
        · exact hds
        · refine List.pairwise_cons.2 ⟨fun e he => ?_, hds⟩
          have := hd e he
          simp only; omega
      · split
        · exact h
        · refine List.pairwise_cons.2 ⟨fun e he => ?_, h⟩
          rcases List.mem_cons.1 he with rfl | he
          · simp only; omega
          · have := hd e he
            simp only; omega

/-- The canonical form, as propositions. -/
theorem wf_iff (m : Memory) :
    m.wf = true ↔ (m.cells.Pairwise fun c d => c.1 < d.1) ∧ ∀ c ∈ m.cells, c.1 < 0x1000 ∧ c.2 ≠ m.base c.1 := by
  simp only [Memory.wf, Bool.and_eq_true, cellsRise_iff, List.all_eq_true, decide_eq_true_eq]

/-- A write inside memory keeps the canonical form. -/
theorem write_wf {m : Memory} {a : Nat} (b : Byte) (h : m.wf = true) (ha : a < 0x1000) : (m.write a b).wf = true := by
  obtain ⟨hr, hc⟩ := (wf_iff m).1 h
  refine (wf_iff _).2 ⟨storeCell_rise hr, fun c hm => ?_⟩
  rcases storeCell_mem hm with ⟨rfl, hb⟩ | hm
  · exact ⟨ha, hb⟩
  · exact hc c hm

/-- Writing bytes inside memory keeps the canonical form. -/
theorem writeBytes_wf {m : Memory} {a : Nat} {bs : List Byte} (h : m.wf = true) (ha : a + bs.length ≤ 0x1000) :
    (m.writeBytes a bs).wf = true := by
  induction bs generalizing m a with
  | nil => exact h
  | cons b bs ih =>
    simp only [List.length_cons] at ha
    exact ih (write_wf b h (by omega)) (by omega)

/-- `MemWrite` keeps the canonical form: where it answers, the range was inside memory. -/
theorem memWrite_wf {m m' : Memory} {a : Nat} {bs : List Byte} (h : m.wf = true) (hw : memWrite m a bs = some m') :
    m'.wf = true := by
  unfold memWrite inBounds at hw
  split at hw
  · next hb =>
    simp only [Bool.and_eq_true, decide_eq_true_eq] at hb
    cases hw
    exact writeBytes_wf h hb.2
  · cases hw

/-- All `MemWrite` can do (R52). -/
theorem memWrite_cases (m : Memory) (a : Nat) (bs : List Byte) :
    (a ≤ 0xFFF ∧ a + bs.length ≤ 0x1000 ∧ memWrite m a bs = some (m.writeBytes a bs)) ∨
    ((0xFFF < a ∨ 0x1000 < a + bs.length) ∧ memWrite m a bs = none) := by
  unfold memWrite inBounds
  by_cases h1 : a ≤ 0xFFF <;> by_cases h2 : a + bs.length ≤ 0x1000 <;> simp [h1, h2] <;> omega

/-- All `MemRead` can do (R52). -/
theorem memRead_cases (m : Memory) (a n : Nat) :
    (a ≤ 0xFFF ∧ a + n ≤ 0x1000 ∧ memRead m a n = some (m.readBytes a n)) ∨
    ((0xFFF < a ∨ 0x1000 < a + n) ∧ memRead m a n = none) := by
  unfold memRead inBounds
  by_cases h1 : a ≤ 0xFFF <;> by_cases h2 : a + n ≤ 0x1000 <;> simp [h1, h2] <;> omega

@[simp] theorem readBytes_length (m : Memory) (a n : Nat) : (m.readBytes a n).length = n := by
  induction n generalizing a with
  | zero => rfl
  | succ n ih => simp [Memory.readBytes, ih]

/-- Two words of memory make the fetched word (R55, R111). -/
theorem fetchWord_eq (s : State) :
    fetchWord s = if s.pc.toNat ≤ 0xFFE then some (wordOfBytes (s.mem.read s.pc.toNat) (s.mem.read (s.pc.toNat + 1)))
      else none := by
  have := s.pc.isLt
  rcases memRead_cases s.mem s.pc.toNat 2 with ⟨_, _, h⟩ | ⟨_, h⟩
  · rw [if_pos (by omega)]; simp [fetchWord, h, Memory.readBytes]
  · rw [if_neg (by omega)]; simp [fetchWord, h]

/-- A listed byte after a store to another address: unchanged. -/
theorem lookupCell_storeCell_ne {base b : Byte} {a k : Nat} {cs : List Host.Cell} (h : k ≠ a) :
    lookupCell k (storeCell base a b cs) = lookupCell k cs := by
  induction cs with
  | nil => simp only [storeCell]; split <;> simp [lookupCell, h.symm]
  | cons d ds ih =>
    simp only [storeCell]
    split
    · simp only [lookupCell, ih]
    · split
      · next heq =>
        have hk : d.1 ≠ k := by omega
        split <;> simp [lookupCell, h.symm, hk]
      · split
        · rfl
        · simp [lookupCell, h.symm]

/-- A write leaves every other byte alone (R61). -/
theorem read_write_ne (m : Memory) {a k : Nat} (b : Byte) (h : k ≠ a) : (m.write a b).read k = m.read k := by
  simp only [Memory.read, base_write]
  rw [Memory.write, lookupCell_storeCell_ne h]

/-- An address below every listed one is not listed. -/
theorem lookupCell_none {a : Nat} {cs : List Host.Cell} (h : ∀ c ∈ cs, a < c.1) : lookupCell a cs = none := by
  induction cs with
  | nil => rfl
  | cons d ds ih =>
    have hd := h d (List.mem_cons_self ..)
    rw [lookupCell, if_neg (by omega)]
    exact ih fun c hc => h c (List.mem_cons_of_mem _ hc)

/-- The stored byte reads back, whatever the reset contents are. -/
theorem lookupCell_storeCell_eq {base b : Byte} {a : Nat} {cs : List Host.Cell}
    (h : cs.Pairwise fun c d => c.1 < d.1) : (lookupCell a (storeCell base a b cs)).getD base = b := by
  induction cs with
  | nil => simp only [storeCell]; split <;> simp_all [lookupCell]
  | cons d ds ih =>
    obtain ⟨hd, hds⟩ := List.pairwise_cons.1 h
    simp only [storeCell]
    split
    · rw [lookupCell, if_neg (by omega)]; exact ih hds
    · split
      · next heq =>
        split
        · next hb =>
          rw [lookupCell_none fun c hc => by have := hd c hc; omega]; exact hb.symm
        · simp [lookupCell]
      · split
        · next hb =>
          rw [lookupCell_none fun c hc => ?_]
          · exact hb.symm
          · rcases List.mem_cons.1 hc with rfl | hc
            · omega
            · have := hd c hc; omega
        · simp [lookupCell]

/-- A byte just written reads back (R61). -/
theorem read_write_eq {m : Memory} (a : Nat) (b : Byte) (h : m.wf = true) : (m.write a b).read a = b := by
  simp only [Memory.read, base_write]
  exact lookupCell_storeCell_eq ((wf_iff m).1 h).1

end Sys2Proof.Machine
end

