-- ==== Sys2Proof/Laws/Ops.lean ====
section
/-! SUPPORT. One lemma for each shared operation, saying once everything it can do. -/

namespace Sys2Proof.Machine

/-- All an advance can do (R24): `PC + 2`, or the raise. -/
theorem advancePc_cases (s : State) :
    (s.pc.toNat ≤ 0xFFD ∧ advancePc s = { s with pc := s.pc + 2 }) ∨
    (0xFFE ≤ s.pc.toNat ∧ advancePc s = raise (.contractViolation .addressRange) s) := by
  unfold advancePc
  split
  · exact .inr ⟨by omega, rfl⟩
  · exact .inl ⟨by omega, rfl⟩

theorem advancePc_of_le {s : State} (h : s.pc.toNat ≤ 0xFFD) : advancePc s = { s with pc := s.pc + 2 } := by
  rw [advancePc, if_neg (by omega)]

theorem advancePc_of_ge {s : State} (h : 0xFFE ≤ s.pc.toNat) :
    advancePc s = raise (.contractViolation .addressRange) s := by
  rw [advancePc, if_pos (by omega)]

/-- What an advance leaves alone: everything but `PC` and `STATUS`. -/
theorem advancePc_frame (s : State) :
    advancePc s = { s with pc := (advancePc s).pc, status := (advancePc s).status } := by
  rcases advancePc_cases s with ⟨-, h⟩ | ⟨-, h⟩
  · rw [h]
  · rw [h]; rfl

section advancePc
variable (s : State)

@[simp] theorem advancePc_v : (advancePc s).v = s.v := by rw [advancePc_frame]
@[simp] theorem advancePc_reg (y : Reg) : (advancePc s).reg y = s.reg y := by rw [advancePc_frame]; rfl
@[simp] theorem advancePc_i : (advancePc s).i = s.i := by rw [advancePc_frame]
@[simp] theorem advancePc_sp : (advancePc s).sp = s.sp := by rw [advancePc_frame]
@[simp] theorem advancePc_stack : (advancePc s).stack = s.stack := by rw [advancePc_frame]
@[simp] theorem advancePc_dt : (advancePc s).dt = s.dt := by rw [advancePc_frame]
@[simp] theorem advancePc_st : (advancePc s).st = s.st := by rw [advancePc_frame]
@[simp] theorem advancePc_mem : (advancePc s).mem = s.mem := by rw [advancePc_frame]
@[simp] theorem advancePc_tickCount : (advancePc s).tickCount = s.tickCount := by rw [advancePc_frame]
@[simp] theorem advancePc_accUs : (advancePc s).accUs = s.accUs := by rw [advancePc_frame]
@[simp] theorem advancePc_lastUs : (advancePc s).lastUs = s.lastUs := by rw [advancePc_frame]
@[simp] theorem advancePc_settings : (advancePc s).settings = s.settings := by rw [advancePc_frame]
@[simp] theorem advancePc_display : (advancePc s).display = s.display := by rw [advancePc_frame]
@[simp] theorem advancePc_keypad : (advancePc s).keypad = s.keypad := by rw [advancePc_frame]
@[simp] theorem advancePc_random : (advancePc s).random = s.random := by rw [advancePc_frame]
@[simp] theorem advancePc_clock : (advancePc s).clock = s.clock := by rw [advancePc_frame]
@[simp] theorem advancePc_reports : (advancePc s).reports = s.reports := by rw [advancePc_frame]

end advancePc

/-- What a skip leaves alone: everything but `PC` and `STATUS` (R144). -/
theorem skipIf_frame (cond : Bool) (s : State) :
    skipIf cond s = { s with pc := (skipIf cond s).pc, status := (skipIf cond s).status } := by
  unfold skipIf
  split
  · rw [advancePc_frame (advancePc s), advancePc_frame s]
  · exact advancePc_frame s

/-- What an advance leaves of `STATUS`: it stays, or the advance has raised. -/
theorem advancePc_status (s : State) :
    (advancePc s).status = s.status ∨ (advancePc s).status = .halted (.contractViolation .addressRange) := by
  rcases advancePc_cases s with ⟨-, h⟩ | ⟨-, h⟩
  · exact .inl (by rw [h])
  · exact .inr (by rw [h]; rfl)

/-- All a skip can do (R144). -/
theorem skipIf_cases (cond : Bool) (s : State) :
    (cond = true ∧ s.pc.toNat ≤ 0xFFB ∧ skipIf cond s = { s with pc := s.pc + 4 }) ∨
    (cond = true ∧ 0xFFC ≤ s.pc.toNat ∧ s.pc.toNat ≤ 0xFFD ∧
      skipIf cond s = raise (.contractViolation .addressRange) { s with pc := s.pc + 2 }) ∨
    (cond = false ∧ s.pc.toNat ≤ 0xFFD ∧ skipIf cond s = { s with pc := s.pc + 2 }) ∨
    (0xFFE ≤ s.pc.toNat ∧ skipIf cond s = raise (.contractViolation .addressRange) s) := by
  have := s.pc.isLt
  by_cases hp : 0xFFE ≤ s.pc.toNat
  · refine .inr (.inr (.inr ⟨hp, ?_⟩))
    rw [skipIf, if_neg (by omega), advancePc_of_ge hp]
  cases cond with
  | false =>
    refine .inr (.inr (.inl ⟨rfl, by omega, ?_⟩))
    rw [skipIf, if_neg (by simp), advancePc_of_le (by omega)]
  | true =>
    have hone : skipIf true s = advancePc { s with pc := s.pc + 2 } := by
      rw [skipIf, if_pos ⟨rfl, by omega⟩, advancePc_of_le (s := s) (by omega)]
    by_cases hq : s.pc.toNat ≤ 0xFFB
    · refine .inl ⟨rfl, hq, ?_⟩
      have h2 : (s.pc + 2).toNat ≤ 0xFFD := by bv_omega
      have h4 : s.pc + 2 + 2 = s.pc + 4 := by bv_omega
      rw [hone, advancePc_of_le (s := { s with pc := s.pc + 2 }) h2]
      simp only [h4]
    · refine .inr (.inl ⟨rfl, by omega, by omega, ?_⟩)
      have h2 : 0xFFE ≤ (s.pc + 2).toNat := by bv_omega
      rw [hone, advancePc_of_ge (s := { s with pc := s.pc + 2 }) h2]

/-- What a key skip leaves alone (R210, R211). -/
theorem skipOnKey_frame (wanted : Bool) (x : Reg) (s : State) :
    skipOnKey wanted x s = { s with pc := (skipOnKey wanted x s).pc, status := (skipOnKey wanted x s).status,
                                    keypad := (skipOnKey wanted x s).keypad } := by
  unfold skipOnKey
  split
  · rfl
  · dsimp only
    split
    · rfl
    · rw [skipIf_frame]

/-- All a query of the sequencer can do (R249, R250): it changes the sequencer's own state and the clock's. -/
theorem shouldTick_frame (s : State) :
    (shouldTick s).2 = { s with tickCount := (shouldTick s).2.tickCount, accUs := (shouldTick s).2.accUs,
                                lastUs := (shouldTick s).2.lastUs, clock := (shouldTick s).2.clock } := by
  unfold shouldTick
  split <;> rfl

/-- All the tick phase can do (R112): the query's changes and, if it answers true, the tick. -/
theorem tickPhase_cases (s : State) :
    ((shouldTick s).1 = false ∧ tickPhase s = (shouldTick s).2) ∨
    ((shouldTick s).1 = true ∧ tickPhase s = tickTimers (shouldTick s).2) := by
  unfold tickPhase
  cases h : (shouldTick s).1
  · exact .inl ⟨rfl, by simp [h]⟩
  · exact .inr ⟨rfl, by simp [h]⟩

/-- What the tick phase leaves alone: everything but the timers, the sequencer's state and the clock's (R119). -/
theorem tickPhase_frame (s : State) :
    tickPhase s = { s with dt := (tickPhase s).dt, st := (tickPhase s).st, tickCount := (tickPhase s).tickCount,
                           accUs := (tickPhase s).accUs, lastUs := (tickPhase s).lastUs,
                           clock := (tickPhase s).clock } := by
  rcases tickPhase_cases s with ⟨-, h⟩ | ⟨-, h⟩
  · rw [h, shouldTick_frame s]
  · rw [h, shouldTick_frame s]; rfl

section tickPhase
variable (s : State)

@[simp] theorem tickPhase_v : (tickPhase s).v = s.v := by rw [tickPhase_frame]
@[simp] theorem tickPhase_reg (y : Reg) : (tickPhase s).reg y = s.reg y := by rw [tickPhase_frame]; rfl
@[simp] theorem tickPhase_i : (tickPhase s).i = s.i := by rw [tickPhase_frame]
@[simp] theorem tickPhase_pc : (tickPhase s).pc = s.pc := by rw [tickPhase_frame]
@[simp] theorem tickPhase_sp : (tickPhase s).sp = s.sp := by rw [tickPhase_frame]
@[simp] theorem tickPhase_stack : (tickPhase s).stack = s.stack := by rw [tickPhase_frame]
@[simp] theorem tickPhase_mem : (tickPhase s).mem = s.mem := by rw [tickPhase_frame]
@[simp] theorem tickPhase_status : (tickPhase s).status = s.status := by rw [tickPhase_frame]
@[simp] theorem tickPhase_settings : (tickPhase s).settings = s.settings := by rw [tickPhase_frame]
@[simp] theorem tickPhase_display : (tickPhase s).display = s.display := by rw [tickPhase_frame]
@[simp] theorem tickPhase_keypad : (tickPhase s).keypad = s.keypad := by rw [tickPhase_frame]
@[simp] theorem tickPhase_random : (tickPhase s).random = s.random := by rw [tickPhase_frame]
@[simp] theorem tickPhase_reports : (tickPhase s).reports = s.reports := by rw [tickPhase_frame]

end tickPhase

/-- All a key skip can do (R210, R211). -/
theorem skipOnKey_cases (wanted : Bool) (x : Reg) (s : State) :
    (keyIndex (s.reg x) = none ∧ skipOnKey wanted x s = raise (.contractViolation .keyIndex) s) ∨
    ∃ k, keyIndex (s.reg x) = some k ∧
      (((s.keypad.isPressed k).1 = .err ∧ skipOnKey wanted x s =
        raise (.ioError .keyQuery) { s with keypad := (s.keypad.isPressed k).2 }) ∨
      ∃ pressed, (s.keypad.isPressed k).1 = .ok pressed ∧ skipOnKey wanted x s =
        skipIf (pressed == wanted) { s with keypad := (s.keypad.isPressed k).2 }) := by
  cases h : keyIndex (s.reg x) with
  | none => exact .inl ⟨rfl, by simp only [skipOnKey, h]⟩
  | some k =>
    refine .inr ⟨k, rfl, ?_⟩
    cases ha : (s.keypad.isPressed k).1 with
    | err => exact .inl ⟨rfl, by simp only [skipOnKey, h, ha]⟩
    | ok pressed => exact .inr ⟨pressed, rfl, by simp only [skipOnKey, h, ha]⟩

/-- All an answer to a key request can do (R212). -/
theorem settleWait_cases (x : Reg) (answer : KeyWait) (s : State) :
    (answer = .waiting ∧ settleWait x answer s = s) ∨
    (∃ k, answer = .key k ∧ settleWait x answer s =
      advancePc (({ s with keypad := s.keypad.answered, status := .running } : State).setReg x
        (BitVec.ofNat 8 k.val))) ∨
    (answer = .err ∧ settleWait x answer s = raise (.ioError .keyWait) { s with keypad := s.keypad.answered }) := by
  cases answer with
  | waiting => exact .inl ⟨rfl, rfl⟩
  | key k => exact .inr (.inl ⟨k, rfl, rfl⟩)
  | err => exact .inr (.inr ⟨rfl, rfl⟩)

/-- What an answer to a key request leaves alone (R212). -/
theorem settleWait_frame (x : Reg) (answer : KeyWait) (s : State) :
    settleWait x answer s = { s with pc := (settleWait x answer s).pc, status := (settleWait x answer s).status,
                                     keypad := (settleWait x answer s).keypad, v := (settleWait x answer s).v } := by
  rcases settleWait_cases x answer s with ⟨-, h⟩ | ⟨k, -, h⟩ | ⟨-, h⟩
  · rw [h]
  · rw [h, advancePc_frame]; rfl
  · rw [h]; rfl

@[simp] theorem answered_pending (kp : Keypad) : kp.answered.pending = false := rfl
@[simp] theorem blockForKey_pending (kp : Keypad) : kp.blockForKey.2.pending = true := rfl

/-- The port's answer to a held machine (R41). -/
theorem answerKey_held {s : State} {x : Reg} (h : s.status = .held x) (answer : KeyWait) :
    s.answerKey answer = settleWait x answer s := by
  rw [State.answerKey, h]

/-- A machine that is not held has no request to answer. -/
theorem answerKey_not_held {s : State} (h : ∀ x, s.status ≠ .held x) (answer : KeyWait) : s.answerKey answer = s := by
  unfold State.answerKey
  split
  · exact absurd ‹_› (h _)
  · rfl
  · rfl

/-- All an unsupported word can do (R117). -/
theorem unsupported_cases (w : Word) (s : State) :
    (s.settings.unsupportedPolicy = .skip ∧ unsupported w s =
      advancePc { s with reports := s.reports ++ [{ word := w, address := s.pc }] }) ∨
    (s.settings.unsupportedPolicy = .halt ∧ unsupported w s = raise (.unsupportedInstruction w s.pc) s) := by
  unfold unsupported
  cases h : s.settings.unsupportedPolicy
  · exact .inl ⟨rfl, rfl⟩
  · exact .inr ⟨rfl, rfl⟩

/-- All a load can do (R287, R288). -/
theorem load_cases (rom : Reply (List Byte)) (s : State) :
    (∃ bytes, rom = .ok bytes ∧ bytes.length ≤ 0xE00 ∧
      s.load rom = { s with mem := s.mem.writeBytes 0x200 bytes }) ∨
    (∃ bytes, rom = .ok bytes ∧ 0xE00 < bytes.length ∧
      s.load rom = raise (.contractViolation .romTooLarge) s) ∨
    (rom = .err ∧ s.load rom =
      raise (.ioError .romRead) { s with mem := s.mem.writeBytes 0x200 (Config.romRemnant.take 0xE00) }) := by
  cases rom with
  | err => exact .inr (.inr ⟨rfl, rfl⟩)
  | ok bytes =>
    by_cases h : bytes.length > programRegionSize
    · exact .inr (.inl ⟨bytes, rfl, h, by rw [State.load, if_pos h]⟩)
    · exact .inl ⟨bytes, rfl, Nat.le_of_not_gt h, by rw [State.load, if_neg h]⟩

/-- Placing a word changes `PC`, `STATUS` and memory, and no more (log 26). -/
theorem placeWord_frame (b0 b1 : Byte) (s : State) :
    placeWord b0 b1 s = { s with pc := (placeWord b0 b1 s).pc, status := .running, mem := (placeWord b0 b1 s).mem } :=
  rfl

/-- A result and its flag (R161): two writes of registers, VF the second. -/
theorem reg_writeWithFlag (x : Reg) (result flag : Byte) (s : State) (y : Reg) :
    (writeWithFlag x result flag s).reg y = if y = flagReg then flag else if y = x then result else s.reg y := by
  rw [writeWithFlag, reg_setReg, reg_setReg]

/-- A halted machine takes no step (R243). -/
theorem step_halted {s : State} {cause : Cause} (h : s.status = .halted cause) : step s = .fault (.halted cause) := by
  cases s
  cases h
  rfl

/-- A held machine takes no step (R120, R258). -/
theorem step_held {s : State} {x : Reg} (h : s.status = .held x) : step s = .fault (.held x) := by
  cases s
  cases h
  rfl

/-- A step of a running machine is the four phases of R118. -/
theorem step_running {s : State} (h : s.status = .running) :
    step s = match fetchWord s with
      | none => .next (raise (.contractViolation .bounds) s)
      | some w =>
        match decode w with
        | .ok i => exec i (tickPhase s)
        | .error _ => .next (unsupported w (tickPhase s)) := by
  cases s
  cases h
  rfl

end Sys2Proof.Machine
end

