-- ==== Sys2Proof/Laws/Run.lean ====
section
/-! SUPPORT. What a run with gas does at each status (40_step_cycle.md R121). -/

namespace Sys2Proof.Machine

@[simp] theorem runGas_zero (s : State) : s.runGas 0 = (s, 0) := rfl

/-- A running machine with gas takes a step, and the run goes on from there. -/
theorem runGas_next {s t : State} (gas : Nat) (hs : s.status = .running) (h : step s = .next t) :
    s.runGas (gas + 1) = t.runGas gas := by
  simp only [State.runGas, hs, h]

/-- A run goes no further than a halt: its gas stays. -/
theorem runGas_halted {s : State} {cause : Cause} (gas : Nat) (h : s.status = .halted cause) :
    s.runGas gas = (s, gas) := by
  cases gas <;> simp only [State.runGas, h]

/-- A run hangs in a key wait: its gas stays. -/
theorem runGas_held {s : State} {x : Reg} (gas : Nat) (h : s.status = .held x) : s.runGas gas = (s, gas) := by
  cases gas <;> simp only [State.runGas, h]

end Sys2Proof.Machine
end

