-- ==== Sys2Proof/Tests/Slice0.lean ====
section
/-! SUPPORT. The model's own tests. Expected values come from the spec: the words from 30_encoding.md R90, R92, R103, R104
and 95_test_vectors.md part 3; the steps from 95_test_vectors.md part 2, by the vector's id. -/

namespace Sys2Proof.Tests

open Sys2Proof.Machine

/-! ### WellFormed: one ill-formed term for each check (R100, R82) -/

theorem test_check_refuses_operandCount : (Raw.mk .jump []).check = .error .operandCount := by decide
theorem test_check_refuses_registerIndex : (Raw.mk .storeXNN [16, 0]).check = .error .registerIndex := by decide
theorem test_check_refuses_second_registerIndex : (Raw.mk .addXY [2, 16]).check = .error .registerIndex := by decide
theorem test_check_refuses_immediate : (Raw.mk .storeXNN [0, 256]).check = .error .immediate := by decide
theorem test_check_refuses_address : (Raw.mk .jump [4096]).check = .error .address := by decide
theorem test_check_refuses_nibble : (Raw.mk .drawXYN [1, 2, 16]).check = .error .nibble := by decide
theorem test_check_reads : (Raw.mk .drawXYN [1, 2, 5]).check = .ok (.drawXYN 1 2 5) := by decide
theorem test_wellFormed : (Raw.mk .addXY [2, 0]).wellFormed = true ∧ (Raw.mk .addXY [2]).wellFormed = false := by decide

/-! ### Decoding: a word for every row, written out from R90 -/

theorem test_decode_family0 : decode 0x00E0 = .ok .clearScreen ∧ decode 0x00EE = .ok .ret := by decide
theorem test_decode_flow : decode 0x1ABC = .ok (.jump 0xABC) ∧ decode 0x2210 = .ok (.callNNN 0x210) ∧
    decode 0xB300 = .ok (.jumpV0 0x300) := by decide
theorem test_decode_skips : decode 0x3412 = .ok (.skipEqXNN 4 0x12) ∧ decode 0x432A = .ok (.skipNeXNN 3 0x2A) ∧
    decode 0x5120 = .ok (.skipEqXY 1 2) ∧ decode 0x9120 = .ok (.skipNeXY 1 2) := by decide
theorem test_decode_moves : decode 0x6A55 = .ok (.storeXNN 10 0x55) ∧ decode 0x70FF = .ok (.addXNN 0 255) ∧
    decode 0x8210 = .ok (.storeXY 2 1) ∧ decode 0xA20A = .ok (.storeINNN 0x20A) := by decide
theorem test_decode_logic : decode 0x8121 = .ok (.or 1 2) ∧ decode 0x8122 = .ok (.and 1 2) ∧
    decode 0x8123 = .ok (.xor 1 2) := by decide
theorem test_decode_arithmetic : decode 0x8204 = .ok (.addXY 2 0) ∧ decode 0x8305 = .ok (.sub 3 0) ∧
    decode 0x8AB6 = .ok (.shr 10 11) ∧ decode 0x8127 = .ok (.subReverse 1 2) ∧ decode 0x833E = .ok (.shl 3 3) := by
  decide
theorem test_decode_random_draw : decode 0xC10F = .ok (.random 1 0x0F) ∧ decode 0xD125 = .ok (.drawXYN 1 2 5) := by decide
theorem test_decode_keypad : decode 0xE19E = .ok (.skipPressedX 1) ∧ decode 0xE1A1 = .ok (.skipNotPressedX 1) ∧
    decode 0xF50A = .ok (.waitKeyX 5) := by decide
theorem test_decode_timers : decode 0xF307 = .ok (.readDelayX 3) ∧ decode 0xF215 = .ok (.setDelayX 2) ∧
    decode 0xF618 = .ok (.setSoundX 6) := by decide
theorem test_decode_index : decode 0xF21E = .ok (.addIX 2) ∧ decode 0xF029 = .ok (.storeSpriteX 0) ∧
    decode 0xF133 = .ok (.storeDecimal 1) ∧ decode 0xF155 = .ok (.writeToMemory 1) ∧
    decode 0xFE65 = .ok (.readFromMemory 14) := by decide
theorem test_decode_rejects : ([0x0000, 0x00E1, 0x00FE, 0x0123, 0x5121, 0x512F, 0x8128, 0x812D, 0x812F, 0x9121] ++
    [0xE000, 0xE19F, 0xE1A0, 0xF000, 0xF108, 0xF156, 0xF175, 0xF185, 0xF1FF] : List Word).all
      (fun w => decide (decode w = .error (.unsupportedInstruction w))) = true := by decide
theorem test_decode_big_endian : decodeBytes [0x12, 0x34] = .ok (.jump 0x234) ∧
    decodeBytes [0x34, 0x12] = .ok (.skipEqXNN 4 0x12) ∧ decodeBytes [0x12] = .error (.notTwoBytes 1) := by decide
theorem test_encode_words : encode (.shr 10 11) = 0x8AB6 ∧ encode (.drawXYN 1 2 5) = 0xD125 ∧
    encode (.readFromMemory 14) = 0xFE65 ∧ encode (.storeXNN 10 0x55) = 0x6A55 ∧ encode (.jump 0xABC) = 0x1ABC := by
  decide
theorem test_decodeTableWord : decodeTableWord 16 0x6018 = some (.storeXNN 0 24) ∧ decodeTableWord 16 0 = none := by
  decide

/-! ### One step -/

/-- The reset state with some registers set. -/
def withRegs (l : List (Reg × Byte)) (s : State := State.reset) : State :=
  l.foldl (fun s p => s.setReg p.1 p.2) s

/-- Some bytes stored. -/
def withBytes (a : Nat) (bs : List Byte) (s : State) : State := { s with mem := s.mem.writeBytes a bs }

/-- The state after one step that fetches `w`. -/
def after (w : Nat) (s : State) : Option State :=
  match step (s.withFetchWord 16 w) with
  | .next t => some t
  | .fault _ => none
  | .refused _ => none

/-- What a test looks at: `PC`, and a list of registers. -/
def look (rs : List Reg) (t : Option State) : Option (Addr × List Byte) := t.map fun t => (t.pc, rs.map t.reg)

/-- The status after a step. -/
def statusOf (t : Option State) : Option Status := t.map State.status

theorem test_F1_jump : look [] (after 0x1204 { State.reset with pc := 0x20A }) = some (0x204, []) := by decide
theorem test_F3_jump_top : look [] (after 0x1FFF State.reset) = some (0xFFF, []) := by decide
theorem test_F4_call : (after 0x2210 { State.reset with pc := 0x204 }).map (fun t => (t.pc, t.sp, t.stack[0])) =
    some (0x210, 1, 0x204) := by decide
theorem test_F6_call_fault : statusOf (after 0x2300
    { State.reset with sp := 15, settings := { hostSettings with stackPolicy := .fault } }) =
    some (.halted (.contractViolation .stackOverflow)) := by decide
theorem test_F9_return_empty : (after 0x00EE State.reset).map (fun t => (t.pc, t.sp)) = some (2, 15) := by decide
theorem test_F11_return_top : (after 0x00EE { State.reset with sp := 1, stack := State.reset.stack.set 0 0xFFE }).map
    (fun t => (t.pc, t.sp, t.status)) = some (0xFFE, 0, .halted (.contractViolation .addressRange)) := by decide
theorem test_F12_jumpV0 : look [] (after 0xB300 (withRegs [(0, 4), (3, 9)])) = some (0x304, []) := by decide
theorem test_F14_jumpV0_raises : (after 0xBFFF (withRegs [(0, 1)])).map (fun t => (t.pc, t.status)) =
    some (0x200, .halted (.contractViolation .addressRange)) := by decide
theorem test_S1_skipEq : look [] (after 0x3000 { State.reset with pc := 0x208 }) = some (0x20C, []) := by decide
theorem test_S12_skipEq_top : (after 0x3000 { State.reset with pc := 0xFFC }).map (fun t => (t.pc, t.status)) =
    some (0xFFE, .halted (.contractViolation .addressRange)) := by decide
theorem test_S3_skipNe : look [] (after 0x432A { withRegs [(3, 0x2A)] with pc := 0x300 }) = some (0x302, []) := by decide
theorem test_S4_skipNe : look [] (after 0x432B { withRegs [(3, 0x2A)] with pc := 0x300 }) = some (0x304, []) := by decide
theorem test_S6_skipEqXY : look [] (after 0x5120 { withRegs [(1, 7), (2, 8)] with pc := 0x210 }) = some (0x212, []) := by
  decide
theorem test_S8_skipNeXY : look [] (after 0x9120 { withRegs [(1, 7), (2, 8)] with pc := 0x210 }) = some (0x214, []) := by
  decide
theorem test_D1_storeXNN : look [0] (after 0x6018 State.reset) = some (0x202, [0x18]) := by decide
theorem test_D10_storeXNN_top : (after 0x6A55 { State.reset with pc := 0xFFE }).map
    (fun t => (t.pc, t.reg 10, t.status)) = some (0xFFE, 0x55, .halted (.contractViolation .addressRange)) := by decide
theorem test_D4_addXNN : look [0, 15] (after 0x7001 (withRegs [(0, 0xFF), (15, 5)])) = some (0x202, [0, 5]) := by decide
theorem test_D5_addXNN_VF : look [15] (after 0x7FFF (withRegs [(15, 1)])) = some (0x202, [0]) := by decide
theorem test_D6_storeXY : look [1, 2] (after 0x8210 (withRegs [(1, 0x1A)])) = some (0x202, [0x1A, 0x1A]) := by decide
theorem test_D9_storeINNN : (after 0xAFFF { State.reset with i := 0xF000 }).map State.i = some 0x0FFF := by decide
theorem test_A1_or : look [1, 15] (after 0x8121 (withRegs [(1, 0x0F), (2, 0xF0), (15, 1)])) =
    some (0x202, [0xFF, 1]) := by decide
theorem test_A2_and : look [1] (after 0x8122 (withRegs [(1, 0x3C), (2, 0x0F)])) = some (0x202, [0x0C]) := by decide
theorem test_A3_xor : look [1] (after 0x8123 (withRegs [(1, 0xFF), (2, 0x0F)])) = some (0x202, [0xF0]) := by decide
theorem test_A5_addXY : look [1, 15] (after 0x8124 (withRegs [(1, 0xFF), (2, 1)])) = some (0x202, [0, 1]) := by decide
theorem test_A9_addXY_VF : look [15] (after 0x8F14 (withRegs [(15, 0x10), (1, 0x20)])) = some (0x202, [0]) := by decide
theorem test_A11_sub : look [1, 15] (after 0x8125 (withRegs [(1, 17), (2, 30)])) = some (0x202, [0xF3, 0]) := by decide
theorem test_A13_sub_equal : look [1, 15] (after 0x8125 (withRegs [(1, 9), (2, 9)])) = some (0x202, [0, 1]) := by decide
theorem test_A16_subReverse : look [1, 2, 15] (after 0x8127 (withRegs [(1, 0x11), (2, 0x1E)])) =
    some (0x202, [0x0D, 0x1E, 1]) := by decide
theorem test_A17_subReverse : look [1, 15] (after 0x8127 (withRegs [(1, 0x1E), (2, 0x11)])) = some (0x202, [0xF3, 0]) := by
  decide
theorem test_A19_shr_one : look [0, 1, 15] (after 0x8016 (withRegs [(0, 0x2D), (1, 0x81)])) =
    some (0x202, [0x16, 0x81, 1]) := by decide
theorem test_A20_shr_two : look [0, 1, 15] (after 0x8016
    { withRegs [(0, 0x2D), (1, 0x81)] with settings := { hostSettings with shiftMode := .twoRegister } }) =
    some (0x202, [0x40, 0x81, 1]) := by decide
theorem test_A25_shl_one : look [0, 1, 15] (after 0x801E (withRegs [(0, 0x2C), (1, 0x81)])) =
    some (0x202, [0x58, 0x81, 0]) := by decide
theorem test_A26_shl_two : look [0, 1, 15] (after 0x801E
    { withRegs [(0, 0x2C), (1, 0x81)] with settings := { hostSettings with shiftMode := .twoRegister } }) =
    some (0x202, [0x02, 0x81, 1]) := by decide
theorem test_N1_random : look [1] (after 0xC10F { State.reset with random := .reference ⟨0xA7, [], 0⟩ }) =
    some (0x202, [7]) := by decide
theorem test_N4_random_sequence : (after 0xC3FF { State.reset with random := .reference ⟨0xA7, [0x3C], 1⟩ }).map
    (fun t => (t.reg 3, t.random)) = some (0x3C, .reference ⟨0xA7, [0x3C], 0⟩) := by decide

/-- Whether a pixel of the reference display is on. -/
def pixelOf (row col : Nat) (s : State) : Bool :=
  match s.display with
  | .reference d => d.pixel row col
  | .live _ => false

/-- The reset state with one pixel on. -/
def onePixel (row col : Nat) : State :=
  { State.reset with display := .reference ((RefDisplay.blank 64 32).flip row col) }

theorem test_W1_clear : (after 0x00E0 (onePixel 3 3)).map (fun t => (t.pc, pixelOf 3 3 t)) = some (0x202, false) := by
  decide
theorem test_W12_clear_err : statusOf (after 0x00E0 { State.reset with
    display := .live ⟨[], ⟨[.err], 0⟩, Feed.empty _⟩ }) = some (.halted (.ioError .displayClear)) := by decide
theorem test_W3_draw_collision : (after 0xD011 (withBytes 0x300 [0x80] { onePixel 0 0 with i := 0x300 })).map
    (fun t => (t.pc, t.reg 15, pixelOf 0 0 t)) = some (0x202, 1, false) := by decide
theorem test_W6_draw_wraps : (after 0xD012 (withBytes 0x300 [0x80, 0x80] { withRegs [(1, 31)] with i := 0x300 })).map
    (fun t => (t.reg 15, pixelOf 31 0 t, pixelOf 0 0 t, pixelOf 1 0 t)) = some (0, true, true, false) := by decide
theorem test_I3_addIX : (after 0xF01E { withRegs [(0, 2)] with i := 0xFFFF }).map State.i = some 1 := by decide
theorem test_I5_storeSpriteX : (after 0xF029 (withRegs [(0, 15)])).map State.i = some 0x4B := by decide
theorem test_I6_storeSpriteX_raises : (after 0xF029 { withRegs [(0, 16)] with i := 0x123 }).map
    (fun t => (t.i, t.status)) = some (0x123, .halted (.contractViolation .spriteDigit)) := by decide
theorem test_I9_storeDecimal : (after 0xF133 { withRegs [(1, 0xFF)] with i := 0x300 }).map
    (fun t => t.mem.readBytes 0x300 3) = some [2, 5, 5] := by decide
theorem test_I13_storeDecimal_raises : (after 0xF133 { withRegs [(1, 0xFF)] with i := 0xFFE }).map
    (fun t => (t.mem.readBytes 0xFFE 2, t.status)) = some ([0, 0], .halted (.contractViolation .bounds)) := by decide
theorem test_I15_writeToMemory : (after 0xF155 { withRegs [(0, 0x62), (1, 7), (2, 9)] with
    i := 0x20A, settings := { hostSettings with memoryMode := .advance } }).map
    (fun t => (t.mem.readBytes 0x20A 3, t.i)) = some ([0x62, 7, 0], 0x20C) := by decide
theorem test_I19_writeToMemory_self : (after 0xF055 { withRegs [(0, 0xAB)] with i := 0x200 }).map
    (fun t => (t.mem.readBytes 0x200 2, t.pc)) = some ([0xAB, 0x55], 0x202) := by decide
theorem test_I20_readFromMemory : (after 0xF265 (withBytes 0x300 [0, 1, 5, 9]
    { withRegs [(0, 7), (3, 0x33)] with i := 0x300 })).map
    (fun t => ([0, 1, 2, 3].map t.reg, t.i)) = some ([0, 1, 5, 0x33], 0x300) := by decide
theorem test_I23_readFromMemory_raises : (after 0xF065 { State.reset with
    i := 0xFFFF, settings := { hostSettings with memoryMode := .advance } }).map
    (fun t => (t.i, t.status)) = some (0xFFFF, .halted (.contractViolation .bounds)) := by decide

/-- The reset state at 0x220 with some registers set and key scans lined up. -/
def withScans (l : List (Reg × Byte)) (scans : List KeyScan) : State :=
  { withRegs l with pc := 0x220, keypad := { hostDevices.keypad with scans := ⟨scans, 0⟩ } }

/-- Only key 7 pressed. -/
def key7 : KeyState := (Vector.replicate 16 false).set 7 true

theorem test_K1_skipPressed : look [] (after 0xE49E (withScans [(4, 7)] [.changed key7])) = some (0x224, []) := by decide
theorem test_K7_skipPressed_err : (after 0xE49E (withScans [(4, 1)] [.err])).map (fun t => (t.pc, t.status)) =
    some (0x220, .halted (.ioError .keyQuery)) := by decide
theorem test_K3_skipNotPressed : look [] (after 0xE4A1 (withScans [(4, 7)] [.unchanged])) = some (0x224, []) := by decide
theorem test_K6_skipNotPressed_raises : statusOf (after 0xE4A1 (withScans [(4, 0xFF)] [])) =
    some (.halted (.contractViolation .keyIndex)) := by decide

/-- The reset state at 0x230 with what the port has for its key requests lined up. -/
def withWaits (waits : List KeyWait) : State :=
  { State.reset with pc := 0x230, keypad := { hostDevices.keypad with waits := ⟨waits, 0⟩ } }

theorem test_K10_waitKey : (after 0xF50A (withWaits [.key 11])).map (fun t => (t.pc, t.reg 5, t.status)) =
    some (0x232, 11, .running) := by decide
theorem test_K12_waitKey_held : (after 0xF50A (withWaits [.waiting])).map
    (fun t => (t.pc, t.status, t.keypad.pending)) = some (0x230, .held 5, true) := by decide
theorem test_T2_readDelay : (after 0xF307 { State.reset with dt := 3, tickCount := 7 }).map
    (fun t => (t.reg 3, t.dt, t.tickCount)) = some (2, 2, 0) := by decide
theorem test_T4_setDelay : (after 0xF215 { withRegs [(2, 3)] with dt := 9, tickCount := 7 }).map
    (fun t => (t.dt, t.tickCount)) = some (3, 0) := by decide
theorem test_T5_setSound : (after 0xF618 (withRegs [(6, 0x10)])).map State.st = some 0x10 := by decide
theorem test_T8_unsupported_halt : (after 0 { State.reset with dt := 5, tickCount := 7 }).map
    (fun t => (t.pc, t.dt, t.tickCount, t.status)) =
    some (0x200, 4, 0, .halted (.unsupportedInstruction 0 0x200)) := by decide
theorem test_T9_unsupported_skip : (after 0 { State.reset with
    dt := 5, tickCount := 7, settings := { hostSettings with unsupportedPolicy := .skip } }).map
    (fun t => (t.pc, t.dt, t.reports, t.status)) = some (0x202, 4, [⟨0, 0x200⟩], .running) := by decide
theorem test_X1_fetch_top : step { State.reset with pc := 0xFFF, tickCount := 3 } =
    .next (raise (.contractViolation .bounds) { State.reset with pc := 0xFFF, tickCount := 3 }) := by rfl

/-- Vector Q2: queries 4, 5 and 7 of the wall-clock sequencer. -/
theorem test_Q2_wallClock : clockAnswer 37667 27667 10000 = (true, 3333) ∧ clockAnswer 30000 37667 3333 = (false, 3333) ∧
    clockAnswer 100000 43334 0 = (true, 39999) := by decide

/-- Vectors Z7, Z9: an odd ROM is loaded as it is; one too long is refused whole. -/
theorem test_Z7_load : (State.reset.load (.ok [0x60, 0x18, 0x61])).mem.readBytes 0x200 4 = [0x60, 0x18, 0x61, 0] := by
  decide
theorem test_Z9_load_too_large : State.reset.load (.ok (List.replicate 0xE01 0)) =
    raise (.contractViolation .romTooLarge) State.reset := by
  rw [State.load, if_pos (by rw [List.length_replicate]; decide)]

/-- R33: the digit A of the conventional font, in memory after reset. -/
theorem test_font_digit_A : State.reset.mem.readBytes 0x32 5 = [0xF0, 0x90, 0xF0, 0x90, 0x90] := by decide

/-! ### Witnesses: for every statement with hypotheses, states and operands that meet them, each clause at a boundary

The expected ends are those the cited rules give. `wit_` is followed by the statement's name. -/

open Sys2Proof.Claims

/-- The state an instruction leaves. -/
def ran (i : Instr) (s : State) : Option State :=
  match exec i s with
  | .next t => some t
  | .fault _ => none
  | .refused _ => none

/-- The state a step leaves. -/
def stepped (s : State) : Option State :=
  match step s with
  | .next t => some t
  | .fault _ => none
  | .refused _ => none

/-- A state at a given `PC`. -/
def atPc (pc : Addr) (s : State := State.reset) : State := { s with pc := pc }

/-- Where an instruction leaves `PC`, and the status. -/
def ends (i : Instr) (s : State) : Option (Addr × Status) := (ran i s).map fun t => (t.pc, t.status)

/-- Both clauses of `Advances` at their boundary: from 0xFFD the advance is made, from 0xFFE it raises. -/
def bothAdvances (i : Instr) (s : State) : Bool :=
  decide (ends i (atPc 0xFFD s) = some (0xFFF, .running)) && decide (ends i (atPc 0xFFE s) = some (0xFFE, addressRange))

/-- The clauses of `Skips` at their boundaries, for a state in which the condition holds and one in which it does not. -/
def allSkips (i : Instr) (yes no : State) : Bool :=
  decide (ends i (atPc 0xFFD no) = some (0xFFF, .running)) && decide (ends i (atPc 0xFFB yes) = some (0xFFF, .running)) &&
  decide (ends i (atPc 0xFFC yes) = some (0xFFE, addressRange)) &&
  decide (ends i (atPc 0xFFD yes) = some (0xFFF, addressRange)) &&
  decide (ends i (atPc 0xFFE yes) = some (0xFFE, addressRange)) &&
  decide (ends i (atPc 0xFFE no) = some (0xFFE, addressRange))

/-- The reset settings, by wall clock. -/
def byClock : Settings := { hostSettings with timerMode := .wallClock }

/-- The reset settings, with the stack policy Fault. -/
def faulting : Settings := { hostSettings with stackPolicy := .fault }

theorem wit_ResetLeavesTheStateOfTheTable :
    (State.resetWith byClock { hostDevices with clock := ⟨[5], 0⟩, random := .reference ⟨1, [2], 1⟩ }
      conventionalFont).lastUs = 5 ∧
    (State.resetWith byClock { hostDevices with random := .reference ⟨1, [2], 1⟩ } conventionalFont).random =
      .reference ⟨1, [2], 0⟩ ∧
    hostDevices.display = .reference (RefDisplay.blank 64 32) := by decide

theorem wit_MemoryAfterResetAndLoad :
    (State.reset.load (.ok [0x60])).mem.readBytes 0x1FF 3 = [0, 0x60, 0] ∧
    State.reset.mem.readBytes 78 4 = [0x80, 0x80, 0, 0] := by decide

theorem wit_MemoryAfterResetAndLoad_longest : (List.replicate 0xE00 (0x61 : Byte)).length ≤ 0xE00 := by
  rw [List.length_replicate]

theorem wit_LoadFailuresHaltTheMachine : 0xE00 < (List.replicate 0xE01 (0 : Byte)).length := by
  rw [List.length_replicate]; decide

theorem wit_ResetMeetsTheInvariant :
    ∀ d, ({ hostDevices with display := .reference (RefDisplay.blank 1 1) } : Devices).display = .reference d →
      0 < d.width ∧ 0 < d.height := by
  intro d h; cases h; decide

theorem wit_ResetMeetsTheInvariant_load : State.reset.Inv ∧ State.reset.status = .running ∧
    (List.replicate 0xE00 (0x61 : Byte)).length ≤ 0xE00 ∧ (State.reset.load (.ok [0x60])).mem.wf = true := by
  refine ⟨⟨by decide, fun x h => ?_⟩, rfl, by rw [List.length_replicate], by decide⟩
  cases h

theorem wit_DecodeAndEncodeAreInverse : decodeBytes [0xDF, 0xFF] = .ok (.drawXYN 15 15 15) ∧
    decodeBytes [0x1F, 0xFF] = .ok (.jump 0xFFF) := by decide

theorem wit_OpcodeRowsAreDisjoint : Op.drawXYN.row.selects 0xD125 = true ∧ Op.shl.row.selects 0x8FFE = true := by decide

theorem wit_UndecodedWordsAreCarried : ([] : List Byte).length ≠ 2 ∧ ([0, 0, 0] : List Byte).length ≠ 2 := by decide

theorem wit_WrittenInstructionsReadBack : (Raw.mk .drawXYN [15, 15, 15]).check = .ok (.drawXYN 15 15 15) ∧
    (Raw.mk .jump [4095]).check = .ok (.jump 0xFFF) ∧ (Raw.mk .storeXNN [15, 255]).check = .ok (.storeXNN 15 255) := by
  decide

/-- The reset state with a word at a given `PC`. -/
def wordAt (pc : Addr) (b0 b1 : Byte) : State := withBytes pc.toNat [b0, b1] (atPc pc)

theorem wit_StepRunsTheDecodedInstruction :
    (wordAt 0xFFE 0x1A 0xBC).status = .running ∧ (wordAt 0xFFE 0x1A 0xBC).pc.toNat ≤ 0xFFE ∧
    decode (BitVec.ofNat 16 (((wordAt 0xFFE 0x1A 0xBC).mem.read 0xFFE).toNat * 256 +
      ((wordAt 0xFFE 0x1A 0xBC).mem.read 0xFFF).toNat)) = .ok (.jump 0xABC) ∧
    (stepped (wordAt 0xFFE 0x1A 0xBC)).map State.pc = some 0xABC := by decide

theorem wit_FetchAtTheLastByteRaises : (atPc 0xFFF).status = .running ∧ (atPc 0xFFF).pc = 0xFFF ∧
    (stepped (atPc 0xFFF)).map State.status = some (.halted (.contractViolation .bounds)) := by decide

/-- The reset state at a given `PC`, with an unsupported policy. -/
def policyAt (p : UnsupportedPolicy) (pc : Addr) : State :=
  atPc pc { State.reset with settings := { hostSettings with unsupportedPolicy := p } }

theorem wit_UnsupportedWordFollowsThePolicy :
    (policyAt .halt 0xFFE).mem.readBytes 0xFFE 2 = [0, 0] ∧ decode 0 = .error (.unsupportedInstruction 0) ∧
    (stepped (policyAt .halt 0xFFE)).map State.status = some (.halted (.unsupportedInstruction 0 0xFFE)) ∧
    (stepped (policyAt .skip 0xFFD)).map (fun t => (t.pc, t.status)) = some (0xFFF, .running) ∧
    (stepped (policyAt .skip 0xFFE)).map (fun t => (t.pc, t.status)) = some (0xFFE, addressRange) := by decide

theorem wit_PlacedWordIsTheNextInstruction : (atPc 0xFFE).mem.wf = true ∧ (atPc 0xFFF).mem.wf = true ∧
    decodeTableWord 16 0x1ABC = some (.jump 0xABC) ∧ (after 0x1ABC (atPc 0xFFE)).map State.pc = some 0xABC ∧
    ((atPc 0xFFF).withFetchWord 16 0x1ABC).pc = 0x200 ∧ (after 0x1ABC (atPc 0xFFF)).map State.pc = some 0xABC := by
  decide

/-- The reset state held in a `WaitKeyX{5}` at a given `PC`, its request pending. -/
def heldAt (pc : Addr) : State :=
  { withBytes pc.toNat [0xF5, 0x0A] (atPc pc) with
    status := .held 5, keypad := { hostDevices.keypad with pending := true } }

theorem wit_StepsAreEnabledExactlyWhenRunning : State.reset.status = .running ∧ (stepped State.reset).isSome = true ∧
    (raise (.contractViolation .bounds) State.reset).status = .halted (.contractViolation .bounds) ∧
    (heldAt 0x230).status = .held 5 ∧ (stepped (heldAt 0x230)).isSome = false := by decide

/-- The reset state is live: it has not halted. -/
theorem test_reset_live : State.reset.Live := by
  intro c h; cases h

theorem wit_HeldMachineOnlyAwaitsTheKey : (heldAt 0x230).Inv ∧ (∀ x, State.reset.status ≠ .held x) ∧
    ((heldAt 0x230).answerKey .err).status = .halted (.ioError .keyWait) ∧
    (let t := (heldAt 0xFFD).answerKey (.key 15); (t.pc, t.reg 5, t.status)) = (0xFFF, 15, .running) ∧
    (let t := (heldAt 0xFFE).answerKey (.key 15); (t.pc, t.reg 5, t.status)) = (0xFFE, 15, addressRange) := by
  refine ⟨⟨by decide, fun x h => ?_⟩, fun x h => ?_, by decide, by decide, by decide⟩
  · cases h
    exact ⟨0xF50A, by decide, by decide⟩
  · cases h

theorem wit_EveryStepMakesOneTickQuery : State.reset.status = .running ∧
    State.reset.settings.timerMode = .instructionCount ∧ (stepped State.reset).map State.tickCount = some 1 ∧
    (stepped (atPc 0xFFF)).map State.tickCount = some 0 := by decide

theorem wit_EveryStepMakesOneTickQuery_wallClock :
    (stepped { State.reset with settings := byClock, clock := ⟨[9, 12], 0⟩ }).map
      (fun t => (t.clock, t.lastUs, t.tickCount)) = some (⟨[12], 1⟩, 9, 0) ∧
    (stepped (atPc 0xFFF { State.reset with settings := byClock, clock := ⟨[9, 12], 0⟩ })).map
      (fun t => (t.clock, t.lastUs)) = some (⟨[9, 12], 0⟩, 0) := by decide

theorem wit_CountedSequencerTicksEveryEighthQuery : State.reset.settings.timerMode = .instructionCount ∧
    (tickPhase^[7] { State.reset with dt := 1 }).dt = 1 ∧ (tickPhase^[8] { State.reset with dt := 1 }).dt = 0 := by decide

/-- A machine by wall clock: the next reading, `LAST_US` and `ACC_US`. -/
def clockState (now last acc : Nat) : State :=
  { State.reset with settings := byClock, clock := ⟨[now], 0⟩, lastUs := last, accUs := acc }

theorem wit_WallClockSequencerAnswers :
    (clockState 9 10 7).settings.timerMode = .wallClock ∧ (nowUs (clockState 9 10 7).clock).1 = 9 ∧
    (shouldTick (clockState 9 10 7)).1 = false ∧ (shouldTick (clockState 9 10 7)).2.accUs = 7 ∧
    (shouldTick (clockState 10 10 16666)).1 = false ∧ (shouldTick (clockState 10 10 16666)).2.accUs = 16666 ∧
    (shouldTick (clockState 10 10 16667)).1 = true ∧ (shouldTick (clockState 10 10 16667)).2.accUs = 0 := by decide

theorem wit_WallClockLosesNoTime : ([5, 5, 40000, 40001] : List Nat).Pairwise (· ≤ ·) ∧
    clockRun [5, 40000, 40001] 5 0 = (2, 40001, 6662) := by decide

theorem wit_CallPushesItsOwnAddress :
    (ran (.callNNN 0x210) { State.reset with sp := 14, settings := faulting }).map (fun t => (t.sp, t.stack[14])) =
      some (15, 0x200) ∧
    (ran (.callNNN 0x210) { State.reset with sp := 15 }).map (fun t => (t.sp, t.stack[15], t.pc)) =
      some (0, 0x200, 0x210) ∧
    ends (.callNNN 0x210) { State.reset with sp := 15, settings := faulting } =
      some (0x200, .halted (.contractViolation .stackOverflow)) := by decide

/-- A machine with one popped address in `STACK[k]`. -/
def returning (sp : Fin 16) (k : Fin 16) (a : Addr) (settings : Settings) : State :=
  { State.reset with sp := sp, stack := State.reset.stack.set k.val a, settings := settings }

theorem wit_ReturnPopsAndAdvances :
    (ran .ret (returning 1 0 0xFFD faulting)).map (fun t => (t.sp, t.pc)) = some (0, 0xFFF) ∧
    (ran .ret (returning 0 15 0xFFE hostSettings)).map (fun t => (t.sp, t.pc, t.status)) =
      some (15, 0xFFE, addressRange) ∧
    ends .ret (returning 0 15 0xFFE faulting) = some (0x200, .halted (.contractViolation .stackUnderflow)) := by decide

theorem wit_JumpV0AddsRegisterZero :
    ends (.jumpV0 0xFF0) (withRegs [(0, 15)]) = some (0xFFF, .running) ∧
    ends (.jumpV0 0xFF0) (withRegs [(0, 16)]) = some (0x200, addressRange) := by decide

theorem wit_ConditionalSkipsFollowThePattern :
    allSkips (.skipEqXNN 1 7) (withRegs [(1, 7)]) (withRegs [(1, 8)]) = true ∧
    allSkips (.skipNeXNN 1 7) (withRegs [(1, 8)]) (withRegs [(1, 7)]) = true ∧
    allSkips (.skipEqXY 1 2) (withRegs [(1, 7), (2, 7)]) (withRegs [(1, 7)]) = true ∧
    allSkips (.skipNeXY 1 2) (withRegs [(1, 7)]) (withRegs [(1, 7), (2, 7)]) = true := by decide

theorem wit_DataMovesWriteTheirTarget : bothAdvances (.storeXNN 1 255) State.reset = true ∧
    bothAdvances (.addXNN 1 255) State.reset = true ∧ bothAdvances (.storeXY 1 2) State.reset = true ∧
    bothAdvances (.storeINNN 0xFFF) State.reset = true := by decide

theorem wit_LogicWritesNoFlag : bothAdvances (.or 1 2) State.reset = true ∧ bothAdvances (.and 1 2) State.reset = true ∧
    bothAdvances (.xor 1 2) State.reset = true := by decide

theorem wit_AddXYWritesSumAndCarry : bothAdvances (.addXY 1 2) State.reset = true ∧
    (ran (.addXY 1 2) (withRegs [(1, 0xFF), (2, 0)])).map (fun t => (t.reg 1, t.reg 15)) = some (0xFF, 0) := by decide

theorem wit_SubtractionsWriteDifferenceAndNoBorrow : bothAdvances (.sub 1 2) State.reset = true ∧
    bothAdvances (.subReverse 1 2) State.reset = true := by decide

theorem wit_ShiftsWriteTheBitShiftedOut : bothAdvances (.shr 1 2) State.reset = true ∧
    bothAdvances (.shl 1 2) State.reset = true := by decide

theorem wit_RandomMasksOneDrawnByte :
    bothAdvances (.random 1 0x0F) { State.reset with random := .reference ⟨0xA7, [], 0⟩ } = true ∧
    (RandomSource.reference ⟨0xA7, [0x3C], 0⟩).next = (0xA7, .reference ⟨0xA7, [0x3C], 1⟩) ∧
    (RandomSource.reference ⟨0xA7, [0x3C], 1⟩).next = (0x3C, .reference ⟨0xA7, [0x3C], 0⟩) := by decide

/-- A live display with its answers lined up. -/
def liveDisplay (clears : List (Reply Unit)) (draws : List (Reply Bool)) : Display := .live ⟨[], ⟨clears, 0⟩, ⟨draws, 0⟩⟩

theorem wit_ClearScreenCallsTheDisplay : bothAdvances .clearScreen State.reset = true ∧
    (liveDisplay [.ok ()] []).clear.1 = .ok () ∧ (liveDisplay [.err] []).clear.1 = .err ∧
    ends .clearScreen { State.reset with display := liveDisplay [.err] [] } =
      some (0x200, .halted (.ioError .displayClear)) := by decide

theorem wit_DrawSendsTheSpriteAndSetsVF :
    ends (.drawXYN 1 2 0) { State.reset with i := 0x1000 } = some (0x200, .halted (.contractViolation .bounds)) ∧
    ends (.drawXYN 1 2 2) { State.reset with i := 0xFFF } = some (0x200, .halted (.contractViolation .bounds)) ∧
    bothAdvances (.drawXYN 1 2 1) { State.reset with i := 0xFFF } = true ∧
    bothAdvances (.drawXYN 1 2 0) { State.reset with i := 0xFFF } = true ∧
    ends (.drawXYN 1 2 1) { State.reset with display := liveDisplay [] [.err] } =
      some (0x200, .halted (.ioError .displayDraw)) ∧
    (ran (.drawXYN 1 2 1) { State.reset with display := liveDisplay [] [.ok true] }).map (fun t => t.reg 15) =
      some 1 := by decide

theorem wit_KeySkipsFollowTheKeyState :
    ends (.skipPressedX 4) (withRegs [(4, 16)]) = some (0x200, .halted (.contractViolation .keyIndex)) ∧
    ends (.skipNotPressedX 4) (withRegs [(4, 16)]) = some (0x200, .halted (.contractViolation .keyIndex)) ∧
    ends (.skipNotPressedX 4) (withScans [(4, 15)] [.err]) = some (0x220, .halted (.ioError .keyQuery)) ∧
    allSkips (.skipPressedX 4) (withScans [(4, 7)] [.changed key7]) (withScans [(4, 15)] [.changed key7]) = true ∧
    allSkips (.skipNotPressedX 4) (withScans [(4, 15)] [.changed key7]) (withScans [(4, 7)] [.changed key7]) = true := by
  decide

theorem wit_WaitKeyHoldsUntilTheAnswer : bothAdvances (.waitKeyX 5) (withWaits [.key 15]) = true ∧
    ends (.waitKeyX 5) (withWaits [.waiting]) = some (0x230, .held 5) ∧
    (ran (.waitKeyX 5) (withWaits [.waiting])).map (fun t => (t.answerKey (.key 15)).pc) = some 0x232 ∧
    ends (.waitKeyX 5) (withWaits [.err]) = some (0x230, .halted (.ioError .keyWait)) := by decide

theorem wit_TimerMovesCopyTheTimers : bothAdvances (.readDelayX 1) State.reset = true ∧
    bothAdvances (.setDelayX 1) State.reset = true ∧ bothAdvances (.setSoundX 1) State.reset = true := by decide

theorem wit_IndexInstructionsSetI : bothAdvances (.addIX 1) State.reset = true ∧
    bothAdvances (.storeSpriteX 1) (withRegs [(1, 15)]) = true ∧
    ends (.storeSpriteX 1) (withRegs [(1, 16)]) = some (0x200, .halted (.contractViolation .spriteDigit)) := by decide

theorem wit_StoreDecimalWritesThreeDigits : State.reset.mem.wf = true ∧
    bothAdvances (.storeDecimal 1) { State.reset with i := 0xFFD } = true ∧
    ends (.storeDecimal 1) { State.reset with i := 0xFFE } = some (0x200, .halted (.contractViolation .bounds)) := by decide

theorem wit_WriteToMemoryStoresTheRegisters : State.reset.mem.wf = true ∧
    bothAdvances (.writeToMemory 15) { State.reset with i := 0xFF0 } = true ∧
    ends (.writeToMemory 15) { State.reset with i := 0xFF1 } = some (0x200, .halted (.contractViolation .bounds)) := by
  decide

theorem wit_ReadFromMemoryLoadsTheRegisters :
    bothAdvances (.readFromMemory 15) { State.reset with i := 0xFF0 } = true ∧
    ends (.readFromMemory 15) { State.reset with i := 0xFF1 } = some (0x200, .halted (.contractViolation .bounds)) := by
  decide

theorem wit_OnlyNamedRegistersChange : (ran (.addXY 1 2) State.reset).isSome = true ∧ mayWrite (.addXY 1 2) 14 = false ∧
    (ran (.readFromMemory 2) State.reset).isSome = true ∧ mayWrite (.readFromMemory 2) 3 = false := by decide

/-- The state after `WriteToMemory{1}` at 0x300 with `V[0]`, `V[1]` = 9. -/
def stored : Option State := ran (.writeToMemory 1) { withRegs [(0, 9), (1, 9)] with i := 0x300 }

theorem wit_OnlyStoredBytesChange : stored.map (fun t => t.mem.readBytes 0x2FF 4) = some [0, 9, 9, 0] ∧
    storedBytes { State.reset with i := 0x300 } (.writeToMemory 1) = (0x300, 2) ∧
    (ran (.storeDecimal 1) State.reset).isSome = true ∧ (ran (.jump 0) State.reset).isSome = true := by decide

theorem wit_SpecialStateChangesOnlyWhereNamed : (ran (.or 1 2) State.reset).isSome = true ∧
    writesIndex (.or 1 2) = false ∧ usesStack (.or 1 2) = false ∧ Instr.or 1 2 ≠ .clearScreen := by decide

theorem wit_InstructionsRaiseOnlyTheirErrors : State.reset.status = .running ∧
    ends (.or 1 2) State.reset = some (0x202, .running) ∧ ends (.or 1 2) (atPc 0xFFE) = some (0xFFE, addressRange) := by
  decide

theorem wit_ChecksComeBeforeWrites :
    ends (.storeDecimal 1) { State.reset with i := 0xFFE } = some (0x200, .halted (.contractViolation .bounds)) ∧
    Cause.contractViolation .bounds ≠ .contractViolation .addressRange := by decide

theorem wit_FlagWritersLeaveZeroOrOne :
    ends (.addXY 1 2) State.reset = some (0x202, .running) ∧ ends (.addXY 1 2) (atPc 0xFFE) = some (0xFFE, addressRange) ∧
    ends (.drawXYN 1 2 5) State.reset = some (0x202, .running) := by decide

theorem wit_NothingReadsTheSoundTimer :
    (ran (.setSoundX 1) { State.reset with st := 9 }).map State.st = some 0 ∧
    (ran (.or 1 2) { State.reset with st := 9 }).map State.st = some 9 := by decide

theorem wit_StepKeepsTheInvariant_held :
    (withBytes 0x230 [0xF5, 0x0A] (withWaits [.waiting])).Inv ∧
    (stepped (withBytes 0x230 [0xF5, 0x0A] (withWaits [.waiting]))).map State.status = some (.held 5) := by
  refine ⟨⟨by decide, fun x h => ?_⟩, by decide⟩
  cases h

theorem wit_StepKeepsTheInvariant_running : State.reset.Inv ∧ (stepped State.reset).isSome = true := by
  refine ⟨⟨by decide, fun x h => ?_⟩, by decide⟩
  cases h

theorem wit_StepKeepsSettingsAndStack : (stepped (wordAt 0x200 0x60 0x18)).isSome = true ∧
    fetchWord (wordAt 0x200 0x60 0x18) = some 0x6018 ∧ decode 0x6018 = .ok (.storeXNN 0 0x18) ∧
    usesStack (.storeXNN 0 0x18) = false := by decide

theorem wit_StraightLineCodeKeepsPCEven : (stepped (wordAt 0xFFA 0x30 0x00)).map State.pc = some 0xFFE ∧
    fetchWord (wordAt 0xFFA 0x30 0x00) = some 0x3000 ∧ decode 0x3000 = .ok (.skipEqXNN 0 0) ∧
    isTransfer (.skipEqXNN 0 0) = false := by decide

/-- Sixteen call targets: the last alone may be above 0xFFD. -/
def targets : List Addr := List.replicate 15 0xFFD ++ [0xFFF]

theorem wit_SixteenNestedCallsUnwind : State.reset.settings.stackPolicy = .wrap ∧ targets ≠ [] ∧ targets.length = 16 ∧
    (∀ a ∈ targets.dropLast, a.toNat ≤ 0xFFD) ∧ (callAll targets (atPc 0xFFD)).sp = 0 ∧
    (returnAll 16 (callAll targets (atPc 0xFFD))).pc = 0xFFF := by decide

theorem wit_WrittenBytesReadBack : State.reset.mem.wf = true ∧
    (State.reset.mem.writeBytes 0x04F [1, 2]).readBytes 0x04E 4 = [0x80, 1, 2, 0] := by decide

theorem wit_AStoreIsSeenByTheNextFetch :
    (ran (.writeToMemory 1) { withRegs [(0, 0x12), (1, 0x34)] with pc := 0xFFC, i := 0xFFE }).bind fetchWord =
      some 0x1234 ∧ State.reset.mem.wf = true ∧ (0xFFE : Word).toNat = (0xFFC : Addr).toNat + 2 := by decide

theorem wit_MemoriesThatReadAlikeAreEqual :
    (State.reset.mem.write 0x300 7).wf = true ∧
    ((State.reset.mem.write 0x300 9).write 0x301 1).wf = true ∧
    (((State.reset.mem.write 0x300 9).write 0x301 1).write 0x301 0).write 0x300 7 = State.reset.mem.write 0x300 7 := by
  decide

/-- A machine about to store and load `V[0]`, `V[1]` at 0x300. -/
def bulk : State := { withRegs [(0, 9), (1, 8)] with i := 0x300 }

theorem wit_BulkStoreThenLoadRestores : bulk.mem.wf = true ∧ bulk.settings.memoryMode = .noAdvance ∧
    bulk.status = .running ∧ ends (.writeToMemory 1) bulk = some (0x202, .running) ∧
    ((ran (.writeToMemory 1) bulk).bind (ran (.readFromMemory 1))).map (fun u => [u.reg 0, u.reg 1]) = some [9, 8] := by
  decide

theorem wit_DigitSpriteIsReadBack :
    ((ran (.storeSpriteX 7) (State.reset.setReg 7 15)).bind (ran (.readFromMemory 4))).map
      (fun u => [0, 1, 2, 3, 4].map u.reg) = some [0xF0, 0x80, 0xF0, 0x80, 0x80] := by decide

theorem wit_DrawFlipsThePixelsHit : (RefDisplay.blank 8 15).wf = true ∧ (List.replicate 15 (0x80 : Byte)).length ≤ 15 ∧
    hits (RefDisplay.blank 8 15) 255 255 (List.replicate 15 0x80) 14 7 ∧
    ((RefDisplay.blank 8 15).draw 255 255 (List.replicate 15 0x80)).1 = false := by
  refine ⟨by decide, by decide, ⟨14, 0, by decide, by decide, by decide, by decide, by decide⟩, by decide⟩

theorem wit_DrawFlipsThePixelsHit_collision : hits ((RefDisplay.blank 8 15).flip 0 0) 0 0 [0x80] 0 0 ∧
    (((RefDisplay.blank 8 15).flip 0 0).draw 0 0 [0x80]).1 = true := by
  refine ⟨⟨0, 0, by decide, by decide, by decide, by decide, by decide⟩, by decide⟩

theorem wit_DrawingTwiceRestores :
    (RefDisplay.blank 4 2).pixel 1 3 = false ∧ ((RefDisplay.blank 4 2).draw 3 1 [0x80]).2.pixel 1 3 = true ∧
    (((RefDisplay.blank 4 2).draw 3 1 [0x80]).2.draw 3 1 [0x80]).1 = true := by decide

/-- R121, R124: the gas runs out, or a word that does not decode ends the run with gas left; R295: a key wait costs one
step, however long it is held. -/
theorem wit_ARunEndsHaltedOrWithItsGasOrHangs :
    (let r := (wordAt 0x200 0x60 0x18).runGas 1; (r.1.pc, r.1.runEnd, r.2)) = (0x202, .gasSpent, 0) ∧
    (let r := (wordAt 0x200 0x60 0x18).runGas 5; (r.1.pc, r.1.runEnd, r.2)) =
      (0x202, .halted (.unsupportedInstruction 0 0x202), 3) ∧
    (let r := (withBytes 0x230 [0xF5, 0x0A] (withWaits [.waiting])).runGas 5; (r.1.runEnd, r.2)) = (.hanging 5, 4) ∧
    (let r := (heldAt 0x230).resumeRun (.key 15) 4; (r.1.pc, r.1.reg 5, r.1.runEnd, r.2)) =
      (0x232, 15, .halted (.unsupportedInstruction 0 0x232), 3) := by decide

theorem wit_ARunEndsHaltedOrWithItsGasOrHangs_completion : ∃ t, State.reset.RunsToCompletion t :=
  ⟨_, 1, 0, .unsupportedInstruction 0 0x200, rfl, by decide⟩

end Sys2Proof.Tests
end

section
/-! PROOFS. What an instruction whose rule has a check or calls a port can do: one lemma each, every branch of the
rule with its condition and its next state (41_flow_control.md, 46_draw.md, 47_index_memory.md, 48_keypad_timers.md);
and what a step can answer (40_step_cycle.md R118). -/

namespace Sys2Proof.Machine

/-- All `CallNNN` can do (R131). -/
theorem execCallNNN_cases (nnn : Addr) (s : State) :
    (s.sp = 15 ∧ s.settings.stackPolicy = .fault ∧
      execCallNNN nnn s = .next (raise (.contractViolation .stackOverflow) s)) ∨
    (¬ (s.sp = 15 ∧ s.settings.stackPolicy = .fault) ∧
      execCallNNN nnn s = .next { s with stack := s.stack.set s.sp.val s.pc, sp := s.sp + 1, pc := nnn }) := by
  unfold execCallNNN
  split
  · next h => exact .inl ⟨h.1, h.2, rfl⟩
  · next h => exact .inr ⟨h, rfl⟩

/-- All `Return` can do (R132). -/
theorem execReturn_cases (s : State) :
    (s.sp = 0 ∧ s.settings.stackPolicy = .fault ∧
      execReturn s = .next (raise (.contractViolation .stackUnderflow) s)) ∨
    (¬ (s.sp = 0 ∧ s.settings.stackPolicy = .fault) ∧
      execReturn s = .next (advancePc { s with sp := s.sp - 1, pc := s.stack[(s.sp - 1).val] })) := by
  unfold execReturn
  split
  · next h => exact .inl ⟨h.1, h.2, rfl⟩
  · next h => exact .inr ⟨h, rfl⟩

/-- All `JumpV0` can do (R133). -/
theorem execJumpV0_cases (nnn : Addr) (s : State) :
    (jumpTarget nnn (s.reg 0) = none ∧
      execJumpV0 nnn s = .next (raise (.contractViolation .addressRange) s)) ∨
    ∃ target, jumpTarget nnn (s.reg 0) = some target ∧ execJumpV0 nnn s = .next { s with pc := target } := by
  cases h : jumpTarget nnn (s.reg 0) with
  | none => exact .inl ⟨rfl, by simp only [execJumpV0, h]⟩
  | some target => exact .inr ⟨target, rfl, by simp only [execJumpV0, h]⟩

/-- All `StoreSpriteX` can do (R201). -/
theorem execStoreSpriteX_cases (x : Reg) (s : State) :
    (spriteAddress (s.reg x) = none ∧
      execStoreSpriteX x s = .next (raise (.contractViolation .spriteDigit) s)) ∨
    ∃ a, spriteAddress (s.reg x) = some a ∧ execStoreSpriteX x s = .next (advancePc { s with i := a }) := by
  cases h : spriteAddress (s.reg x) with
  | none => exact .inl ⟨rfl, by simp only [execStoreSpriteX, h]⟩
  | some a => exact .inr ⟨a, rfl, by simp only [execStoreSpriteX, h]⟩

/-- All `StoreDecimal` can do (R202). -/
theorem execStoreDecimal_cases (x : Reg) (s : State) :
    (memWrite s.mem s.i.toNat (decimalDigits (s.reg x)) = none ∧
      execStoreDecimal x s = .next (raise (.contractViolation .bounds) s)) ∨
    ∃ mem, memWrite s.mem s.i.toNat (decimalDigits (s.reg x)) = some mem ∧
      execStoreDecimal x s = .next (advancePc { s with mem := mem }) := by
  cases h : memWrite s.mem s.i.toNat (decimalDigits (s.reg x)) with
  | none => exact .inl ⟨rfl, by simp only [execStoreDecimal, h]⟩
  | some mem => exact .inr ⟨mem, rfl, by simp only [execStoreDecimal, h]⟩

/-- All `WriteToMemory` can do (R203, R206). -/
theorem execWriteToMemory_cases (x : Reg) (s : State) :
    (memWrite s.mem s.i.toNat (bulkRegs s x) = none ∧
      execWriteToMemory x s = .next (raise (.contractViolation .bounds) s)) ∨
    ∃ mem, memWrite s.mem s.i.toNat (bulkRegs s x) = some mem ∧
      execWriteToMemory x s = .next (advancePc { s with mem := mem, i := bulkIndex s x }) := by
  cases h : memWrite s.mem s.i.toNat (bulkRegs s x) with
  | none => exact .inl ⟨rfl, by simp only [execWriteToMemory, h]⟩
  | some mem => exact .inr ⟨mem, rfl, by simp only [execWriteToMemory, h]⟩

/-- All `ReadFromMemory` can do (R204, R206). -/
theorem execReadFromMemory_cases (x : Reg) (s : State) :
    (memRead s.mem s.i.toNat (x.val + 1) = none ∧
      execReadFromMemory x s = .next (raise (.contractViolation .bounds) s)) ∨
    ∃ bytes, memRead s.mem s.i.toNat (x.val + 1) = some bytes ∧
      execReadFromMemory x s = .next (advancePc { s with v := loadRegs s.v bytes, i := bulkIndex s x }) := by
  cases h : memRead s.mem s.i.toNat (x.val + 1) with
  | none => exact .inl ⟨rfl, by simp only [execReadFromMemory, h]⟩
  | some bytes => exact .inr ⟨bytes, rfl, by simp only [execReadFromMemory, h]⟩

/-- All `ClearScreen` can do (R191). -/
theorem execClearScreen_cases (s : State) :
    (s.display.clear.1 = .err ∧ execClearScreen s =
      .next (raise (.ioError .displayClear) { s with display := s.display.clear.2 })) ∨
    (s.display.clear.1 = .ok () ∧ execClearScreen s = .next (advancePc { s with display := s.display.clear.2 })) := by
  cases h : s.display.clear.1 with
  | err => exact .inl ⟨rfl, by simp only [execClearScreen, h]⟩
  | ok _ => exact .inr ⟨rfl, by simp only [execClearScreen, h]⟩

/-- All `DrawXYN` can do (R192). -/
theorem execDrawXYN_cases (x y : Reg) (n : Nibble) (s : State) :
    (memRead s.mem s.i.toNat n.toNat = none ∧
      execDrawXYN x y n s = .next (raise (.contractViolation .bounds) s)) ∨
    ∃ rows, memRead s.mem s.i.toNat n.toNat = some rows ∧
      (((s.display.draw (s.reg x) (s.reg y) rows).1 = .err ∧ execDrawXYN x y n s =
        .next (raise (.ioError .displayDraw)
          { s with display := (s.display.draw (s.reg x) (s.reg y) rows).2 })) ∨
      ∃ collision, (s.display.draw (s.reg x) (s.reg y) rows).1 = .ok collision ∧ execDrawXYN x y n s =
        .next (advancePc (({ s with display := (s.display.draw (s.reg x) (s.reg y) rows).2 } : State).setReg
          flagReg (flagByte collision)))) := by
  cases h : memRead s.mem s.i.toNat n.toNat with
  | none => exact .inl ⟨rfl, by simp only [execDrawXYN, h]⟩
  | some rows =>
    refine .inr ⟨rows, rfl, ?_⟩
    cases hd : (s.display.draw (s.reg x) (s.reg y) rows).1 with
    | err => exact .inl ⟨rfl, by simp only [execDrawXYN, h, hd]⟩
    | ok collision => exact .inr ⟨collision, rfl, by simp only [execDrawXYN, h, hd]⟩

/-- All `WaitKeyX` can do (R212): it is held with its request registered, completes with a key, or raises. -/
theorem execWaitKeyX_cases (x : Reg) (s : State) :
    (s.keypad.blockForKey.1 = .waiting ∧ execWaitKeyX x s =
      .next { s with status := .held x, keypad := s.keypad.blockForKey.2 }) ∨
    (∃ k, s.keypad.blockForKey.1 = .key k ∧ execWaitKeyX x s =
      .next (advancePc (({ s with keypad := s.keypad.blockForKey.2.answered, status := .running } : State).setReg x
        (BitVec.ofNat 8 k.val)))) ∨
    (s.keypad.blockForKey.1 = .err ∧ execWaitKeyX x s =
      .next (raise (.ioError .keyWait) { s with keypad := s.keypad.blockForKey.2.answered })) := by
  cases h : s.keypad.blockForKey.1 with
  | waiting => exact .inl ⟨rfl, by simp only [execWaitKeyX, h, settleWait]⟩
  | key k => exact .inr (.inl ⟨k, rfl, by simp only [execWaitKeyX, h, settleWait]⟩)
  | err => exact .inr (.inr ⟨rfl, by simp only [execWaitKeyX, h, settleWait, raise]⟩)

@[simp] theorem fetchWord_tickPhase (s : State) : fetchWord (tickPhase s) = fetchWord s := by
  simp only [fetchWord, tickPhase_mem, tickPhase_pc]

/-- Every answer of a step that is a next state (R118): the fetch raises, the word does not decode, or its instruction
is executed after the tick. -/
theorem step_next_cases {s t : State} (ht : step s = .next t) :
    s.status = .running ∧
      ((fetchWord s = none ∧ t = raise (.contractViolation .bounds) s) ∨
      ∃ w, fetchWord s = some w ∧
        ((∃ e, decode w = .error e ∧ t = unsupported w (tickPhase s)) ∨
        ∃ i, decode w = .ok i ∧ exec i (tickPhase s) = .next t)) := by
  cases hs : s.status with
  | halted c => cases (step_halted hs).symm.trans ht
  | held x => cases (step_held hs).symm.trans ht
  | running =>
    rw [step_running hs] at ht
    refine ⟨rfl, ?_⟩
    cases hf : fetchWord s with
    | none =>
      simp only [hf, Host.Outcome.next.injEq] at ht
      exact .inl ⟨rfl, ht.symm⟩
    | some w =>
      refine .inr ⟨w, rfl, ?_⟩
      cases hd : decode w with
      | error e =>
        simp only [hf, hd, Host.Outcome.next.injEq] at ht
        exact .inl ⟨e, rfl, ht.symm⟩
      | ok i =>
        simp only [hf, hd] at ht
        exact .inr ⟨i, rfl, ht⟩

end Sys2Proof.Machine
end

section
/-! PROOFS. Registers and memory: what a write leaves alone, and what reads back after reset and load (10_state.md R20,
R32, 20_memory.md R61, 44_alu.md R161). -/

namespace Sys2Proof.Machine

/-- A result and its flag change no third register (R161). -/
theorem reg_writeWithFlag_ne {x r : Reg} (result flag : Byte) (s : State) (h : (r == x || r == 15) = false) :
    (writeWithFlag x result flag s).reg r = s.reg r := by
  simp only [Bool.or_eq_false_iff, beq_eq_false_iff_ne] at h
  rw [reg_writeWithFlag, if_neg (show ¬ r = flagReg from h.2), if_neg h.1]

/-- A write of one register changes no other (R20). -/
theorem reg_setReg_ne {x r : Reg} (b : Byte) (s : State) (h : (r == x) = false) : (s.setReg x b).reg r = s.reg r := by
  rw [reg_setReg, if_neg (beq_eq_false_iff_ne.1 h)]

/-- Where `MemRead` answers, it answers as many bytes as were asked for (R52). -/
theorem memRead_length {m : Memory} {a n : Nat} {bytes : List Byte} (h : memRead m a n = some bytes) :
    bytes.length = n := by
  rcases memRead_cases m a n with ⟨-, -, hr⟩ | ⟨-, hr⟩ <;> cases hr.symm.trans h
  exact readBytes_length m a n

/-- A register above the loaded ones keeps its value (R204). -/
theorem loadRegs_getElem_of_le (v : Vector Byte 16) {bytes : List Byte} {r : Reg} (h : bytes.length ≤ r.val) :
    (loadRegs v bytes)[r.val] = v[r.val] := by
  simp only [loadRegs, Vector.getElem_ofFn, List.getD_eq_default _ _ h]

/-- Bytes written in order leave every other byte alone (R61). -/
theorem read_writeBytes_outside (m : Memory) {a k : Nat} (bs : List Byte) (h : k < a ∨ a + bs.length ≤ k) :
    (m.writeBytes a bs).read k = m.read k := by
  induction bs generalizing m a with
  | nil => rfl
  | cons b bs ih =>
    simp only [List.length_cons] at h
    rw [Memory.writeBytes, ih _ (by omega), read_write_ne m b (by omega)]

/-- Bytes written in order read back (R61): the cells need only rise, so the bytes may lie anywhere. -/
theorem read_writeBytes_inside {m : Memory} (h : m.cells.Pairwise fun c d => c.1 < d.1) (a : Nat) (bs : List Byte)
    {k : Nat} (hk : k < bs.length) : (m.writeBytes a bs).read (a + k) = bs[k] := by
  induction bs generalizing m a k with
  | nil => cases hk
  | cons b bs ih =>
    cases k with
    | zero =>
      exact (read_writeBytes_outside _ bs (.inl (Nat.lt_succ_self a))).trans (lookupCell_storeCell_eq h)
    | succ k =>
      rw [Memory.writeBytes, show a + (k + 1) = a + 1 + k by omega]
      exact ih (storeCell_rise h) (a + 1) (Nat.lt_of_succ_lt_succ hk)

/-- After reset no byte is listed: every address reads as the reset contents (R32). -/
theorem resetWith_read (settings : Settings) (devices : Devices) (font : Font) (a : Nat) :
    (State.resetWith settings devices font).mem.read a = Memory.base { font := font, cells := [] } a := rfl

/-- The reset contents hold row `r` of digit `d` at `5 * d + r` (R32, R33). -/
theorem base_digit (m : Memory) (d : Fin 16) (r : Fin 5) : m.base (5 * d.val + r.val) = m.font[d.val][r.val] := by
  have hd : (5 * d.val + r.val) / 5 = d.val := by omega
  have hr : (5 * d.val + r.val) % 5 = r.val := by omega
  simp only [Memory.base, hd, hr]
  rw [dif_pos (by omega)]

/-- The reset contents are zero past the font (R32). -/
theorem base_of_ge (m : Memory) {a : Nat} (h : 80 ≤ a) : m.base a = 0 := dif_neg (by omega)

/-- A ROM that fits changes memory alone, from 0x200 on (R287). -/
theorem load_of_le {rom : List Byte} (h : rom.length ≤ 0xE00) (s : State) :
    s.load (.ok rom) = { s with mem := s.mem.writeBytes 0x200 rom } := if_neg (Nat.not_lt.2 h)

end Sys2Proof.Machine
end

section
/-! PROOFS. The invariant of a machine that is not held, and the operations that keep it (10_state.md R35, R41, R43,
20_memory.md R50, 45_random.md R182, 46_draw.md R195). -/

namespace Sys2Proof.Machine

/-! ### The devices keep their shape -/

/-- The shape of the reference display, as propositions. -/
theorem refDisplay_wf_iff (d : RefDisplay) :
    d.wf = true ↔ 0 < d.width ∧ 0 < d.height ∧ d.pix.length = d.height ∧ ∀ line ∈ d.pix, line.length = d.width := by
  simp only [RefDisplay.wf, Bool.and_eq_true, decide_eq_true_eq, beq_iff_eq, List.all_eq_true, and_assoc]

theorem blank_wf {width height : Nat} (hw : 0 < width) (hh : 0 < height) :
    (RefDisplay.blank width height).wf = true := by
  refine (refDisplay_wf_iff _).2 ⟨hw, hh, List.length_replicate .., fun line hl => ?_⟩
  rw [List.eq_of_mem_replicate hl]
  exact List.length_replicate ..

theorem refDisplay_clear_wf {d : RefDisplay} (h : d.wf = true) : d.clear.wf = true := by
  obtain ⟨hw, hh, -, -⟩ := (refDisplay_wf_iff d).1 h
  exact blank_wf hw hh

theorem flip_wf {d : RefDisplay} (row col : Nat) (h : d.wf = true) : (d.flip row col).wf = true := by
  obtain ⟨hw, hh, hlen, hlines⟩ := (refDisplay_wf_iff d).1 h
  refine (refDisplay_wf_iff _).2 ⟨hw, hh, by simpa [RefDisplay.flip] using hlen, fun line hl => ?_⟩
  obtain ⟨k, hk, rfl⟩ := List.mem_iff_getElem.1 hl
  simp only [RefDisplay.flip, List.length_modify] at hk
  have hold : d.pix[k].length = d.width := hlines _ (List.getElem_mem hk)
  simp only [RefDisplay.flip, List.getElem_modify]
  split
  · simpa using hold
  · exact hold

theorem flipAll_wf {d : RefDisplay} (ps : List (Nat × Nat)) (h : d.wf = true) :
    (RefDisplay.flipAll ps d).2.wf = true := by
  induction ps generalizing d with
  | nil => exact h
  | cons p ps ih => exact ih (flip_wf p.1 p.2 h)

theorem display_clear_wf {d : Display} (h : d.wf = true) : d.clear.2.wf = true := by
  cases d with
  | reference d => exact refDisplay_clear_wf h
  | live d => rfl

theorem display_draw_wf {d : Display} (px py : Byte) (rows : List Byte) (h : d.wf = true) :
    (d.draw px py rows).2.wf = true := by
  cases d with
  | reference d => exact flipAll_wf _ h
  | live d => rfl

theorem random_next_wf (r : RandomSource) : r.next.2.wf = true := by
  cases r with
  | reference r => exact decide_eq_true (Nat.mod_lt _ (Nat.succ_pos _))
  | live bytes => rfl

/-- A key query registers and clears no request (R41, R216). -/
@[simp] theorem isPressed_pending (k : Fin 16) (kp : Keypad) : (kp.isPressed k).2.pending = kp.pending := by
  unfold Keypad.isPressed
  dsimp only
  split <;> rfl

/-! ### The invariant of a machine that is not held -/

/-- The invariant of a machine that is not held: the plain part alone, since only a held engine must stand at its
`WaitKeyX` (`State.Settled.inv`, `settled_of_inv`). -/
def State.Settled (s : State) : Prop := s.wf = true ∧ s.status.isHeld = false

/-- A settled machine, field by field. -/
theorem settled_iff (s : State) :
    s.Settled ↔ s.mem.wf = true ∧ s.display.wf = true ∧ s.random.wf = true ∧ s.keypad.pending = false ∧
      s.status.isHeld = false := by
  simp only [State.Settled, State.wf, Bool.and_eq_true, beq_iff_eq]
  constructor
  · rintro ⟨⟨⟨⟨hm, hd⟩, hr⟩, hp⟩, hs⟩
    exact ⟨hm, hd, hr, hp.trans hs, hs⟩
  · rintro ⟨hm, hd, hr, hp, hs⟩
    exact ⟨⟨⟨⟨hm, hd⟩, hr⟩, hp.trans hs.symm⟩, hs⟩

theorem State.Settled.mem_wf {s : State} (h : s.Settled) : s.mem.wf = true := ((settled_iff s).1 h).1

theorem State.Settled.display_wf {s : State} (h : s.Settled) : s.display.wf = true := by
  obtain ⟨-, hd, -, -, -⟩ := (settled_iff s).1 h
  exact hd

theorem State.Settled.pending {s : State} (h : s.Settled) : s.keypad.pending = false := by
  obtain ⟨-, -, -, hp, -⟩ := (settled_iff s).1 h
  exact hp

theorem State.Settled.inv {s : State} (h : s.Settled) : s.Inv := by
  refine ⟨h.1, fun x hx => ?_⟩
  have hheld := h.2
  rw [hx] at hheld
  cases hheld

theorem settled_of_inv {s : State} (h : s.Inv) (hs : s.status = .running) : s.Settled := ⟨h.1, by rw [hs]; rfl⟩

section settled
variable {s : State} (h : s.Settled)
include h

theorem settled_raise (c : Cause) : (raise c s).Settled := by
  obtain ⟨hm, hd, hr, hp, -⟩ := (settled_iff s).1 h
  exact (settled_iff _).2 ⟨hm, hd, hr, hp, rfl⟩

theorem settled_advancePc : (advancePc s).Settled := by
  rcases advancePc_cases s with ⟨-, ha⟩ | ⟨-, ha⟩
  · rw [ha]; exact h
  · rw [ha]; exact settled_raise h _

theorem settled_skipIf (cond : Bool) : (skipIf cond s).Settled := by
  unfold skipIf
  split
  · exact settled_advancePc (settled_advancePc h)
  · exact settled_advancePc h

theorem settled_mem {m : Memory} (hm : m.wf = true) : ({ s with mem := m } : State).Settled := by
  obtain ⟨-, hd, hr, hp, hs⟩ := (settled_iff s).1 h
  exact (settled_iff _).2 ⟨hm, hd, hr, hp, hs⟩

theorem settled_display {d : Display} (hd : d.wf = true) : ({ s with display := d } : State).Settled := by
  obtain ⟨hm, -, hr, hp, hs⟩ := (settled_iff s).1 h
  exact (settled_iff _).2 ⟨hm, hd, hr, hp, hs⟩

theorem settled_random {r : RandomSource} (hr : r.wf = true) : ({ s with random := r } : State).Settled := by
  obtain ⟨hm, hd, -, hp, hs⟩ := (settled_iff s).1 h
  exact (settled_iff _).2 ⟨hm, hd, hr, hp, hs⟩

theorem settled_keypad {kp : Keypad} (hp : kp.pending = false) : ({ s with keypad := kp } : State).Settled := by
  obtain ⟨hm, hd, hr, -, hs⟩ := (settled_iff s).1 h
  exact (settled_iff _).2 ⟨hm, hd, hr, hp, hs⟩

theorem settled_running : ({ s with status := .running } : State).Settled := by
  obtain ⟨hm, hd, hr, hp, -⟩ := (settled_iff s).1 h
  exact (settled_iff _).2 ⟨hm, hd, hr, hp, rfl⟩

theorem settled_tickPhase : (tickPhase s).Settled := by
  rw [tickPhase_frame]
  exact h

theorem settled_unsupported (w : Word) : (unsupported w s).Settled := by
  rcases unsupported_cases w s with ⟨-, hu⟩ | ⟨-, hu⟩
  · rw [hu]; exact settled_advancePc h
  · rw [hu]; exact settled_raise h _

end settled

/-- The `WaitKeyX` that a step fetches and that holds the machine leaves it in the invariant: it stands where it was
fetched (R120, R41). -/
theorem held_inv {s : State} {w : Word} {x : Reg} (h : s.Settled) (hf : fetchWord s = some w)
    (hd : decode w = .ok (.waitKeyX x)) :
    ({ s with status := .held x, keypad := s.keypad.blockForKey.2 } : State).Inv := by
  obtain ⟨hm, hdisp, hr, -, -⟩ := (settled_iff s).1 h
  refine ⟨?_, fun y hy => ?_⟩
  · simp [State.wf, hm, hdisp, hr, Status.isHeld]
  · cases hy
    exact ⟨w, hf, hd⟩

end Sys2Proof.Machine
end

section
/-! PROOFS. Said once of every instruction: what its rule writes before it ends, and how it ends. -/

namespace Sys2Proof.Machine
open Sys2Proof.Claims

/-- What the rule of `i` has made of `s` in `e` when it comes to its end: `PC` where it was unless the instruction is a
transfer, the registers it may not write as they were, and a settled machine settled. -/
structure RuleWrites (i : Instr) (s e : State) : Prop where
  pc : isTransfer i = false → e.pc = s.pc
  reg : ∀ r, mayWrite i r = false → e.reg r = s.reg r
  settled : s.Settled → e.Settled

/-- The ends of a rule, from the state `e` its writes have made (R24, R144, R243): none, for a jump or a call. -/
inductive RuleEnds (e : State) : State → Prop
  | stay : RuleEnds e e
  | advance : RuleEnds e (advancePc e)
  | skip (cond : Bool) : RuleEnds e (skipIf cond e)
  | raise (c : Cause) : RuleEnds e (raise c e)

/-- A rule that has written nothing by its end. -/
theorem ruleWrites_refl (i : Instr) (s : State) : RuleWrites i s s := ⟨fun _ => rfl, fun _ _ => rfl, id⟩

/-- A key query writes the keypad, and registers no request (R210, R211). -/
theorem ruleWrites_isPressed (i : Instr) (k : Fin 16) (s : State) :
    RuleWrites i s { s with keypad := (s.keypad.isPressed k).2 } :=
  ⟨fun _ => rfl, fun _ _ => rfl, fun h => settled_keypad h ((isPressed_pending k _).trans h.pending)⟩

/-- A call that clears the display writes the display alone (R191). -/
theorem ruleWrites_clear (i : Instr) (s : State) : RuleWrites i s { s with display := s.display.clear.2 } :=
  ⟨fun _ => rfl, fun _ _ => rfl, fun h => settled_display h (display_clear_wf h.display_wf)⟩

/-- Every instruction's rule writes and ends, or is a `WaitKeyX` that holds the machine with its request registered
(R212). -/
theorem exec_writes_and_ends {i : Instr} {s t : State} (ht : exec i s = .next t) :
    (∃ e, RuleEnds e t ∧ RuleWrites i s e) ∨
    ∃ x, i = .waitKeyX x ∧ t = { s with status := .held x, keypad := s.keypad.blockForKey.2 } := by
  cases i with
  | storeXNN | addXNN | storeXY | or | and | xor | readDelayX =>
    cases ht
    exact .inl ⟨_, .advance, fun _ => rfl, fun _ hr => reg_setReg_ne _ _ hr, id⟩
  | addXY | sub | subReverse | shr | shl =>
    cases ht
    exact .inl ⟨_, .advance, fun _ => rfl, fun _ hr => reg_writeWithFlag_ne _ _ _ hr, id⟩
  | storeINNN | addIX | setDelayX | setSoundX =>
    cases ht
    exact .inl ⟨_, .advance, fun _ => rfl, fun _ _ => rfl, id⟩
  | skipEqXNN | skipNeXNN | skipEqXY | skipNeXY =>
    cases ht
    exact .inl ⟨_, .skip _, ruleWrites_refl _ s⟩
  | skipPressedX x | skipNotPressedX x =>
    cases ht
    rcases skipOnKey_cases _ x s with ⟨-, he⟩ | ⟨k, -, ⟨-, he⟩ | ⟨_, -, he⟩⟩ <;> rw [he]
    · exact .inl ⟨_, .raise _, ruleWrites_refl _ s⟩
    · exact .inl ⟨_, .raise _, ruleWrites_isPressed _ k s⟩
    · exact .inl ⟨_, .skip _, ruleWrites_isPressed _ k s⟩
  | random =>
    cases ht
    exact .inl ⟨_, .advance, fun _ => rfl, fun _ hr => reg_setReg_ne _ _ hr,
      fun h => settled_random h (random_next_wf _)⟩
  | jump =>
    cases ht
    exact .inl ⟨_, .stay, nofun, fun _ _ => rfl, id⟩
  | callNNN nnn =>
    rcases execCallNNN_cases nnn s with ⟨-, -, he⟩ | ⟨-, he⟩ <;> cases he.symm.trans ht
    · exact .inl ⟨_, .raise _, ruleWrites_refl _ s⟩
    · exact .inl ⟨_, .stay, nofun, fun _ _ => rfl, id⟩
  | ret =>
    rcases execReturn_cases s with ⟨-, -, he⟩ | ⟨-, he⟩ <;> cases he.symm.trans ht
    · exact .inl ⟨_, .raise _, ruleWrites_refl _ s⟩
    · exact .inl ⟨_, .advance, nofun, fun _ _ => rfl, id⟩
  | jumpV0 nnn =>
    rcases execJumpV0_cases nnn s with ⟨-, he⟩ | ⟨_, -, he⟩ <;> cases he.symm.trans ht
    · exact .inl ⟨_, .raise _, ruleWrites_refl _ s⟩
    · exact .inl ⟨_, .stay, nofun, fun _ _ => rfl, id⟩
  | storeSpriteX x =>
    rcases execStoreSpriteX_cases x s with ⟨-, he⟩ | ⟨_, -, he⟩ <;> cases he.symm.trans ht
    · exact .inl ⟨_, .raise _, ruleWrites_refl _ s⟩
    · exact .inl ⟨_, .advance, fun _ => rfl, fun _ _ => rfl, id⟩
  | storeDecimal x =>
    rcases execStoreDecimal_cases x s with ⟨-, he⟩ | ⟨_, hw, he⟩ <;> cases he.symm.trans ht
    · exact .inl ⟨_, .raise _, ruleWrites_refl _ s⟩
    · exact .inl ⟨_, .advance, fun _ => rfl, fun _ _ => rfl, fun h => settled_mem h (memWrite_wf h.mem_wf hw)⟩
  | writeToMemory x =>
    rcases execWriteToMemory_cases x s with ⟨-, he⟩ | ⟨_, hw, he⟩ <;> cases he.symm.trans ht
    · exact .inl ⟨_, .raise _, ruleWrites_refl _ s⟩
    · exact .inl ⟨_, .advance, fun _ => rfl, fun _ _ => rfl, fun h => settled_mem h (memWrite_wf h.mem_wf hw)⟩
  | readFromMemory x =>
    rcases execReadFromMemory_cases x s with ⟨-, he⟩ | ⟨bytes, hread, he⟩ <;> cases he.symm.trans ht
    · exact .inl ⟨_, .raise _, ruleWrites_refl _ s⟩
    · refine .inl ⟨_, .advance, fun _ => rfl, fun r hr => loadRegs_getElem_of_le s.v ?_, id⟩
      rw [memRead_length hread]
      exact Nat.lt_of_not_le (of_decide_eq_false hr)
  | clearScreen =>
    rcases execClearScreen_cases s with ⟨-, he⟩ | ⟨-, he⟩ <;> cases he.symm.trans ht
    · exact .inl ⟨_, .raise _, ruleWrites_clear _ s⟩
    · exact .inl ⟨_, .advance, ruleWrites_clear _ s⟩
  | drawXYN x y n =>
    rcases execDrawXYN_cases x y n s with ⟨-, he⟩ | ⟨rows, -, ⟨-, he⟩ | ⟨_, -, he⟩⟩ <;> cases he.symm.trans ht
    · exact .inl ⟨_, .raise _, ruleWrites_refl _ s⟩
    · exact .inl ⟨_, .raise _, fun _ => rfl, fun _ _ => rfl,
        fun h => settled_display h (display_draw_wf _ _ _ h.display_wf)⟩
    · exact .inl ⟨_, .advance, fun _ => rfl, fun _ hr => reg_setReg_ne _ _ hr,
        fun h => settled_display h (display_draw_wf _ _ _ h.display_wf)⟩
  | waitKeyX x =>
    rcases execWaitKeyX_cases x s with ⟨-, he⟩ | ⟨_, -, he⟩ | ⟨-, he⟩ <;> cases he.symm.trans ht
    · exact .inr ⟨x, rfl, rfl⟩
    · exact .inl ⟨_, .advance, fun _ => rfl, fun _ hr => reg_setReg_ne _ _ hr,
        fun h => settled_keypad (settled_running h) (answered_pending _)⟩
    · exact .inl ⟨_, .raise _, fun _ => rfl, fun _ _ => rfl, fun h => settled_keypad h (answered_pending _)⟩

/-! ### What the end of a rule keeps -/

theorem RuleEnds.reg_eq {e t : State} (h : RuleEnds e t) (r : Reg) : t.reg r = e.reg r := by
  cases h with
  | stay => rfl
  | advance => exact advancePc_reg e r
  | skip cond => rw [skipIf_frame]; rfl
  | raise c => rfl

theorem RuleEnds.settled {e t : State} (h : RuleEnds e t) (he : e.Settled) : t.Settled := by
  cases h with
  | stay => exact he
  | advance => exact settled_advancePc he
  | skip cond => exact settled_skipIf he cond
  | raise c => exact settled_raise he c

end Sys2Proof.Machine
end

section
/-! PROOFS. The parity of `PC` (10_state.md R25) and the values of a flag (R26). -/

namespace Sys2Proof.Machine
open Sys2Proof.Claims

/-- `PC` is even. -/
def State.EvenPc (s : State) : Prop := s.pc.toNat % 2 = 0

section evenPc
variable {s : State} (h : s.EvenPc)
include h

theorem evenPc_advancePc : (advancePc s).EvenPc := by
  rcases advancePc_cases s with ⟨hle, ha⟩ | ⟨-, ha⟩
  · have hpc : (s.pc + 2).toNat = s.pc.toNat + 2 := by bv_omega
    rw [ha, State.EvenPc, hpc, Nat.add_mod_right]
    exact h
  · rw [ha]; exact h

theorem evenPc_skipIf (cond : Bool) : (skipIf cond s).EvenPc := by
  unfold skipIf
  split
  · exact evenPc_advancePc (evenPc_advancePc h)
  · exact evenPc_advancePc h

theorem evenPc_unsupported (w : Word) : (unsupported w s).EvenPc := by
  rcases unsupported_cases w s with ⟨-, hu⟩ | ⟨-, hu⟩
  · rw [hu]; exact evenPc_advancePc h
  · rw [hu]; exact h

theorem evenPc_tickPhase : (tickPhase s).EvenPc := by
  rw [State.EvenPc, tickPhase_pc]
  exact h

end evenPc

theorem RuleEnds.evenPc {e t : State} (h : RuleEnds e t) (he : e.EvenPc) : t.EvenPc := by
  cases h with
  | stay => exact he
  | advance => exact evenPc_advancePc he
  | skip cond => exact evenPc_skipIf he cond
  | raise c => exact he

/-- An instruction that is no transfer keeps an even `PC` even: by the end of its rule, or where it is held. -/
theorem evenPc_exec {i : Instr} {s t : State} (h : s.EvenPc) (hi : isTransfer i = false)
    (ht : exec i s = .next t) : t.EvenPc := by
  rcases exec_writes_and_ends ht with ⟨e, hends, hwrites⟩ | ⟨x, -, rfl⟩
  · refine hends.evenPc ?_
    rw [State.EvenPc, hwrites.pc hi]
    exact h
  · exact h

theorem flagByte_zero_or_one (b : Bool) : flagByte b = 0 ∨ flagByte b = 1 := by cases b <;> decide

theorem lowBitFlag_zero_or_one (o : Byte) : lowBitFlag o = 0 ∨ lowBitFlag o = 1 := by
  rcases Nat.mod_two_eq_zero_or_one o.toNat with h | h <;> simp [lowBitFlag, h]

theorem highBitFlag_zero_or_one (o : Byte) : highBitFlag o = 0 ∨ highBitFlag o = 1 := by
  have := o.isLt
  obtain h | h : o.toNat / 128 = 0 ∨ o.toNat / 128 = 1 := by omega
  all_goals simp [highBitFlag, h]

/-- VF after it is written (R22). -/
@[simp] theorem vf_setReg_flagReg (s : State) (b : Byte) : (s.setReg flagReg b).reg 15 = b :=
  (reg_setReg s flagReg b 15).trans (if_pos rfl)

/-- After a result and its flag VF holds the flag, the result's register being VF or not (R161). -/
theorem vf_advancePc_writeWithFlag (x : Reg) (result : Byte) {flag : Byte} (s : State) (h : flag = 0 ∨ flag = 1) :
    (advancePc (writeWithFlag x result flag s)).reg 15 = 0 ∨
      (advancePc (writeWithFlag x result flag s)).reg 15 = 1 := by
  rw [advancePc_reg, writeWithFlag, vf_setReg_flagReg]
  exact h

/-- After a draw that is not ended by its bounds or its port VF holds the collision (R192). -/
theorem vf_execDrawXYN {x y : Reg} {n : Nibble} {s t : State} (ht : execDrawXYN x y n s = .next t)
    (hend : t.status = .running ∨ t.status = addressRange) : t.reg 15 = 0 ∨ t.reg 15 = 1 := by
  rcases execDrawXYN_cases x y n s with ⟨-, he⟩ | ⟨_, -, ⟨-, he⟩ | ⟨collision, -, he⟩⟩ <;>
    cases he.symm.trans ht
  · simp [addressRange] at hend
  · simp [addressRange] at hend
  · rw [advancePc_reg, vf_setReg_flagReg]
    exact flagByte_zero_or_one collision

end Sys2Proof.Machine
end

section
/-! PROOFS. The obligations of the state's family (10_state.md): the invariant of the whole machine, the frame of the
general registers, the flag, the parity of `PC`, and memory after reset and load. -/

namespace Sys2Proof.Machine

/-- Settles O49: a step that does not hold the machine leaves it settled, and one that does has executed the `WaitKeyX`
it fetched. -/
theorem stepKeepsTheInvariant : Obligations.StepKeepsTheInvariant := by
  unfold Obligations.StepKeepsTheInvariant
  intro s t hinv ht
  obtain ⟨hs, hcases⟩ := step_next_cases ht
  have h : s.Settled := settled_of_inv hinv hs
  obtain ⟨-, rfl⟩ | ⟨w, hf, ⟨e, -, rfl⟩ | ⟨i, hd, he⟩⟩ := hcases
  · exact (settled_raise h _).inv
  · exact (settled_unsupported (settled_tickPhase h) w).inv
  · rcases exec_writes_and_ends he with ⟨e, hends, hwrites⟩ | ⟨x, rfl, rfl⟩
    · exact (hends.settled (hwrites.settled (settled_tickPhase h))).inv
    · exact held_inv (settled_tickPhase h) ((fetchWord_tickPhase s).trans hf) hd

/-- Settles O42: no end of a rule writes a register, and before it only those the rule names are written. -/
theorem onlyNamedRegistersChange : Obligations.OnlyNamedRegistersChange := by
  unfold Obligations.OnlyNamedRegistersChange
  intro i s t ht r hr
  rcases exec_writes_and_ends ht with ⟨e, hends, hwrites⟩ | ⟨x, -, rfl⟩
  · exact (hends.reg_eq r).trans (hwrites.reg r hr)
  · rfl

/-- Settles O47: the ALU's five end with their flag in VF, and a draw that raises before its flag ends in
neither status. -/
theorem flagWritersLeaveZeroOrOne : Obligations.FlagWritersLeaveZeroOrOne := by
  unfold Obligations.FlagWritersLeaveZeroOrOne
  intro x y n s t i _ hend hi ht
  simp only [List.mem_cons, List.not_mem_nil, or_false] at hi
  obtain rfl | rfl | rfl | rfl | rfl | rfl := hi
  · cases ht; exact vf_advancePc_writeWithFlag _ _ _ (flagByte_zero_or_one _)
  · cases ht; exact vf_advancePc_writeWithFlag _ _ _ (flagByte_zero_or_one _)
  · cases ht; exact vf_advancePc_writeWithFlag _ _ _ (flagByte_zero_or_one _)
  · cases ht; exact vf_advancePc_writeWithFlag _ _ _ (lowBitFlag_zero_or_one _)
  · cases ht; exact vf_advancePc_writeWithFlag _ _ _ (highBitFlag_zero_or_one _)
  · exact vf_execDrawXYN ht hend

/-- Settles O51: by the phases of the step, each keeping an even `PC`. -/
theorem straightLineCodeKeepsPCEven : Obligations.StraightLineCodeKeepsPCEven := by
  unfold Obligations.StraightLineCodeKeepsPCEven
  intro s t ht hplain heven
  obtain ⟨-, ⟨-, rfl⟩ | ⟨w, hf, ⟨_, -, rfl⟩ | ⟨i, hd, he⟩⟩⟩ := step_next_cases ht
  · exact heven
  · exact evenPc_unsupported (evenPc_tickPhase heven) w
  · exact evenPc_exec (evenPc_tickPhase heven) (hplain w i hf hd) he

/-- Settles O2: reset lists no byte, and a load writes the ROM's bytes from 0x200 on and no other. -/
theorem memoryAfterResetAndLoad : Obligations.MemoryAfterResetAndLoad := by
  unfold Obligations.MemoryAfterResetAndLoad
  intro settings devices font rom hlen reset loaded
  have hloaded : loaded = reset.writeBytes 0x200 rom := congrArg State.mem (load_of_le hlen _)
  have hdigit (d : Fin 16) (r : Fin 5) : reset.read (5 * d.val + r.val) = font[d.val][r.val] :=
    (resetWith_read settings devices font _).trans (base_digit _ d r)
  have hzero (a : Nat) (ha : 80 ≤ a) : reset.read a = 0 :=
    (resetWith_read settings devices font a).trans (base_of_ge _ ha)
  rw [hloaded]
  refine ⟨fun d r => ⟨hdigit d r, ?_⟩, hzero, fun k hk => ?_, fun a ha hout => ?_⟩
  · rw [read_writeBytes_outside _ _ (.inl (by omega)), hdigit]
  · exact read_writeBytes_inside List.Pairwise.nil 0x200 rom hk
  · rw [read_writeBytes_outside _ _ hout, hzero a ha]

end Sys2Proof.Machine
end

section
/-! PROOFS. A step that fetches a word which decodes (40_step_cycle.md R118), and a word placed for the fetch (log 26). -/

namespace Sys2Proof.Machine

/-- A running machine performs the instruction of the word it fetches, after its tick phase (R118). -/
theorem step_of_decode {s : State} {w : Word} {i : Instr} (hs : s.status = .running) (hf : fetchWord s = some w)
    (hd : decode w = .ok i) : step s = exec i (tickPhase s) := by
  simp only [step_running hs, hf, hd]

/-- Below 0xFFF the fetch gives the word of the two bytes at `PC` (R111, R55). -/
theorem fetchWord_of_le {s : State} (h : s.pc.toNat ≤ 0xFFE) :
    fetchWord s = some (wordOfBytes (s.mem.read s.pc.toNat) (s.mem.read (s.pc.toNat + 1))) := by
  rw [fetchWord_eq, if_pos h]

/-- The table decoder reads the word of the two bytes laid out. -/
theorem decodeTableWord_eq_some {nbits w : Nat} {i : Instr} (h : decodeTableWord nbits w = some i) :
    decode (wordOfBytes (tableBytes nbits w).1 (tableBytes nbits w).2) = .ok i := by
  simp only [decodeTableWord, decodeBytes] at h
  cases hd : decode (wordOfBytes (tableBytes nbits w).1 (tableBytes nbits w).2) with
  | error e => simp [hd] at h
  | ok j => simpa [hd] using h

/-- A placed word stays where `PC` is, if a word can be fetched there. -/
theorem placeWord_pc_of_le {s : State} (b0 b1 : Byte) (h : s.pc.toNat ≤ 0xFFE) : (placeWord b0 b1 s).pc = s.pc :=
  if_pos (by omega)

/-- A word can always be fetched where one is placed. -/
theorem placeWord_pc_le (b0 b1 : Byte) (s : State) : (placeWord b0 b1 s).pc.toNat ≤ 0xFFE := by
  by_cases h : s.pc.toNat ≤ 0xFFE
  · rw [placeWord_pc_of_le b0 b1 h]; exact h
  · have : (placeWord b0 b1 s).pc = entryPoint := if_neg (by omega)
    rw [this]; decide

/-- Bytes written at `PC` are the word fetched there, the first two of them (R55, R69). -/
theorem fetchWord_of_mem_eq_writeBytes {s : State} {m : Memory} {bs : List Byte} (hwf : m.wf = true)
    (hmem : s.mem = m.writeBytes s.pc.toNat bs) (hpc : s.pc.toNat ≤ 0xFFE) (hlen : 2 ≤ bs.length) :
    fetchWord s = some (wordOfBytes bs[0] bs[1]) := by
  have hread {k : Nat} (hk : k < bs.length) : s.mem.read (s.pc.toNat + k) = bs[k] := by
    rw [hmem]
    exact read_writeBytes_inside ((wf_iff m).1 hwf).1 _ bs hk
  have h0 : s.mem.read s.pc.toNat = bs[0] := hread (k := 0) (by omega)
  rw [fetchWord_of_le hpc, h0, hread (k := 1) (by omega)]

/-- A placed word is the one fetched (R55). -/
theorem fetchWord_placeWord {s : State} (b0 b1 : Byte) (h : s.mem.wf = true) :
    fetchWord (placeWord b0 b1 s) = some (wordOfBytes b0 b1) :=
  fetchWord_of_mem_eq_writeBytes (bs := [b0, b1]) h rfl (placeWord_pc_le b0 b1 s) (Nat.le_refl 2)

end Sys2Proof.Machine
end

section
/-! PROOFS. The canonical form of memory determines it (20_memory.md R50, log 24): a byte is listed exactly where memory
reads otherwise than after reset. -/

namespace Sys2Proof.Machine

/-- In a list that rises, the listed byte of an address is the one of its only cell. -/
theorem lookupCell_eq_some_iff {a : Nat} {b : Byte} {cs : List Host.Cell} (h : cs.Pairwise fun c d => c.1 < d.1) :
    lookupCell a cs = some b ↔ (a, b) ∈ cs := by
  induction cs with
  | nil => simp [lookupCell]
  | cons d ds ih =>
    obtain ⟨hd, hds⟩ := List.pairwise_cons.1 h
    by_cases heq : d.1 = a
    · have hlater : (a, b) ∉ ds := fun hm => by have := hd _ hm; simp only at this; omega
      simp [lookupCell, heq, hlater, Prod.ext_iff, eq_comm]
    · have hfirst : (a, b) ≠ d := fun hc => heq (by rw [← hc])
      simp [lookupCell, heq, hfirst, ih hds]

/-- The cells listed are the addresses that read otherwise than after reset, with what they read as. -/
theorem mem_cells_iff {m : Memory} (h : m.wf = true) (a : Nat) (b : Byte) :
    (a, b) ∈ m.cells ↔ a < 0x1000 ∧ m.read a = b ∧ b ≠ m.base a := by
  obtain ⟨hrise, hcells⟩ := (wf_iff m).1 h
  constructor
  · intro hm
    obtain ⟨ha, hb⟩ := hcells _ hm
    exact ⟨ha, by rw [Memory.read, (lookupCell_eq_some_iff hrise).2 hm]; rfl, hb⟩
  · rintro ⟨-, rfl, hb⟩
    rw [← lookupCell_eq_some_iff hrise]
    cases hl : lookupCell a m.cells with
    | none => exact absurd (by rw [Memory.read, hl]; rfl) hb
    | some c => rw [Memory.read, hl]; rfl

/-- The reset contents depend on the font alone (R32). -/
theorem base_congr {m m' : Memory} (h : m.font = m'.font) (a : Nat) : m.base a = m'.base a := by
  simp only [Memory.base, h]

end Sys2Proof.Machine
end

section
/-! PROOFS. Said once of every instruction: what it makes of memory (20_memory.md R59). -/

namespace Sys2Proof.Machine
open Sys2Proof.Claims

@[simp] theorem skipIf_mem (cond : Bool) (s : State) : (skipIf cond s).mem = s.mem := by rw [skipIf_frame]

@[simp] theorem skipOnKey_mem (wanted : Bool) (x : Reg) (s : State) : (skipOnKey wanted x s).mem = s.mem := by
  rw [skipOnKey_frame]

@[simp] theorem settleWait_mem (x : Reg) (answer : KeyWait) (s : State) : (settleWait x answer s).mem = s.mem := by
  rw [settleWait_frame]

@[simp] theorem bulkRegs_length (s : State) (x : Reg) : (bulkRegs s x).length = x.val + 1 := by
  have := x.isLt
  simp only [bulkRegs, List.length_take, Vector.length_toList]; omega

theorem bulkRegs_getElem (s : State) (x : Reg) {k : Nat} (hk : k < (bulkRegs s x).length) (hv : k < 16) :
    (bulkRegs s x)[k] = s.v[k] := by
  simp only [bulkRegs, List.getElem_take, Vector.getElem_toList]

/-- Where `MemWrite` answers, it has written the bytes (R52). -/
theorem memWrite_eq_some {m m' : Memory} {a : Nat} {bs : List Byte} (h : memWrite m a bs = some m') :
    m' = m.writeBytes a bs := by
  rcases memWrite_cases m a bs with ⟨-, -, hw⟩ | ⟨-, hw⟩ <;> cases hw.symm.trans h
  rfl

/-- An instruction leaves memory as it is, or writes bytes exactly where `storedBytes` says (R59). -/
theorem exec_mem_cases {i : Instr} {s t : State} (ht : exec i s = .next t) :
    t.mem = s.mem ∨
    ∃ bytes, bytes.length = (storedBytes s i).2 ∧ t.mem = s.mem.writeBytes (storedBytes s i).1 bytes := by
  cases i with
  | storeXNN | addXNN | storeXY | or | and | xor | addXY | sub | subReverse | shr | shl | storeINNN | addIX | random
  | readDelayX | setDelayX | setSoundX =>
    cases ht
    exact .inl (advancePc_mem _)
  | skipEqXNN | skipNeXNN | skipEqXY | skipNeXY =>
    cases ht
    exact .inl (skipIf_mem _ _)
  | skipPressedX | skipNotPressedX =>
    cases ht
    exact .inl (skipOnKey_mem _ _ _)
  | waitKeyX =>
    cases ht
    exact .inl (settleWait_mem _ _ _)
  | jump =>
    cases ht
    exact .inl rfl
  | callNNN nnn =>
    rcases execCallNNN_cases nnn s with ⟨-, -, he⟩ | ⟨-, he⟩ <;> cases he.symm.trans ht <;> exact .inl rfl
  | ret =>
    rcases execReturn_cases s with ⟨-, -, he⟩ | ⟨-, he⟩ <;> cases he.symm.trans ht
    · exact .inl rfl
    · exact .inl (advancePc_mem _)
  | jumpV0 nnn =>
    rcases execJumpV0_cases nnn s with ⟨-, he⟩ | ⟨_, -, he⟩ <;> cases he.symm.trans ht <;> exact .inl rfl
  | storeSpriteX x =>
    rcases execStoreSpriteX_cases x s with ⟨-, he⟩ | ⟨_, -, he⟩ <;> cases he.symm.trans ht
    · exact .inl rfl
    · exact .inl (advancePc_mem _)
  | readFromMemory x =>
    rcases execReadFromMemory_cases x s with ⟨-, he⟩ | ⟨_, -, he⟩ <;> cases he.symm.trans ht
    · exact .inl rfl
    · exact .inl (advancePc_mem _)
  | clearScreen =>
    rcases execClearScreen_cases s with ⟨-, he⟩ | ⟨-, he⟩ <;> cases he.symm.trans ht
    · exact .inl rfl
    · exact .inl (advancePc_mem _)
  | drawXYN x y n =>
    rcases execDrawXYN_cases x y n s with ⟨-, he⟩ | ⟨_, -, ⟨-, he⟩ | ⟨_, -, he⟩⟩ <;> cases he.symm.trans ht
    · exact .inl rfl
    · exact .inl rfl
    · exact .inl (advancePc_mem _)
  | storeDecimal x =>
    rcases execStoreDecimal_cases x s with ⟨-, he⟩ | ⟨_, hw, he⟩ <;> cases he.symm.trans ht
    · exact .inl rfl
    · exact .inr ⟨_, rfl, (advancePc_mem _).trans (memWrite_eq_some hw)⟩
  | writeToMemory x =>
    rcases execWriteToMemory_cases x s with ⟨-, he⟩ | ⟨_, hw, he⟩ <;> cases he.symm.trans ht
    · exact .inl rfl
    · exact .inr ⟨_, bulkRegs_length s x, (advancePc_mem _).trans (memWrite_eq_some hw)⟩

end Sys2Proof.Machine
end

section
/-! PROOFS. The obligations of memory's family (20_memory.md): what a write changes and leaves, what is fetched, and that
the canonical form is unique. -/

namespace Sys2Proof.Machine

/-- Settles O43: what an instruction makes of memory is at most a write of the bytes it stores to. -/
theorem onlyStoredBytesChange : Obligations.OnlyStoredBytesChange := by
  unfold Obligations.OnlyStoredBytesChange
  intro i s t ht a ha
  rcases exec_mem_cases ht with hmem | ⟨bytes, hlen, hmem⟩
  · rw [hmem]
  · rw [hmem, read_writeBytes_outside _ _ (by rwa [hlen])]

/-- Settles O53: by the write's two reading rules, inside the range and outside it. -/
theorem writtenBytesReadBack : Obligations.WrittenBytesReadBack := by
  unfold Obligations.WrittenBytesReadBack
  intro m a bs hwf
  exact ⟨fun _ hk => read_writeBytes_inside ((wf_iff m).1 hwf).1 a bs hk, fun _ hb => read_writeBytes_outside m bs hb⟩

/-- Settles O54: the store succeeds, and after the advance `PC` is where it has put `V[0]` and `V[1]`. -/
theorem aStoreIsSeenByTheNextFetch : Obligations.AStoreIsSeenByTheNextFetch := by
  unfold Obligations.AStoreIsSeenByTheNextFetch
  intro x s t hwf hx hpc hi hfits ht
  have hlen := bulkRegs_length s x
  have hnext : (s.pc + 2).toNat = s.i.toNat := by bv_omega
  rcases execWriteToMemory_cases x s with ⟨hw, -⟩ | ⟨mem, hw, he⟩
  · obtain ⟨-, -, hw'⟩ | ⟨hout, -⟩ := memWrite_cases s.mem s.i.toNat (bulkRegs s x)
    · cases hw'.symm.trans hw
    · omega
  · cases he.symm.trans ht
    rw [advancePc_of_le (by simp only; omega), fetchWord_of_mem_eq_writeBytes (bs := bulkRegs s x) hwf
      (by simp only [hnext, memWrite_eq_some hw]) (by simp only; omega) (by omega),
      bulkRegs_getElem s x _ (by omega), bulkRegs_getElem s x _ (by omega)]
    rfl

/-- Settles O55: reading alike, the two list the same cells, and a list that rises is determined by its members. -/
theorem memoriesThatReadAlikeAreEqual : Obligations.MemoriesThatReadAlikeAreEqual := by
  unfold Obligations.MemoriesThatReadAlikeAreEqual
  intro m m' hwf hwf' hfont hread
  have hmem (c : Host.Cell) : c ∈ m.cells ↔ c ∈ m'.cells := by
    rw [mem_cells_iff hwf, mem_cells_iff hwf', base_congr hfont]
    exact and_congr_right fun ha => by rw [hread _ ha]
  have : Std.Asymm fun c d : Host.Cell => c.1 < d.1 := ⟨fun _ _ => lt_asymm⟩
  have hcells : m.cells = m'.cells :=
    ((wf_iff m).1 hwf).1.eq_of_mem_iff ((wf_iff m').1 hwf').1 hmem
  cases m
  cases m'
  simp only at hfont hcells
  rw [hfont, hcells]

/-- Settles O11: the two bytes at `PC` are the word fetched. -/
theorem stepRunsTheDecodedInstruction : Obligations.StepRunsTheDecodedInstruction := by
  unfold Obligations.StepRunsTheDecodedInstruction
  intro s i hs hpc hd
  exact step_of_decode hs (fetchWord_of_le hpc) hd

/-- Settles O14: the placed word is the one fetched, and the machine is running. -/
theorem placedWordIsTheNextInstruction : Obligations.PlacedWordIsTheNextInstruction := by
  unfold Obligations.PlacedWordIsTheNextInstruction
  intro s w i hwf hd
  exact ⟨step_of_decode rfl (fetchWord_placeWord _ _ hwf) (decodeTableWord_eq_some hd), rfl, placeWord_pc_of_le _ _⟩

end Sys2Proof.Machine
end

section
/-! PROOFS. The rows of the opcode table (30_encoding.md R90): a word selects a row by its family nibble and the row's
fixed low bits, and it selects no two. -/

namespace Sys2Proof

/-- The low bits that a format takes from its row and not from an operand (R83 to R86), of a word. -/
def Shape.fixedPart (w : Word) : Shape → Nat
  | .formZ _ => (fieldNNN w).toNat
  | .formX _ => (fieldNN w).toNat
  | .formXY _ => (fieldN w).toNat
  | .formA _ | .formXI _ | .formXYN _ => 0

/-- How many they are. -/
def Shape.fixedBits : Shape → Nat
  | .formZ _ => 12
  | .formX _ => 8
  | .formXY _ => 4
  | .formA _ | .formXI _ | .formXYN _ => 0

theorem fieldF_eq (w : Word) : fieldF w = w.toNat / 4096 := by
  have := w.isLt
  simp only [fieldF, bitsOf]; omega

theorem fieldNNN_toNat (w : Word) : (fieldNNN w).toNat = w.toNat % 4096 := by
  simp only [fieldNNN, bitsOf, BitVec.toNat_ofNat]; omega

theorem fieldNN_toNat (w : Word) : (fieldNN w).toNat = w.toNat % 256 := by
  simp only [fieldNN, bitsOf, BitVec.toNat_ofNat]; omega

theorem fieldN_toNat (w : Word) : (fieldN w).toNat = w.toNat % 16 := by
  simp only [fieldN, bitsOf, BitVec.toNat_ofNat]; omega

theorem fieldX_val (w : Word) : (fieldX w).val = w.toNat / 256 % 16 := by
  simp only [fieldX, bitsOf, Fin.val_ofNat]; omega

theorem fieldY_val (w : Word) : (fieldY w).val = w.toNat / 16 % 16 := by
  simp only [fieldY, bitsOf, Fin.val_ofNat]; omega

theorem fixedPart_eq_mod (w : Word) (f : Shape) : f.fixedPart w = w.toNat % 2 ^ f.fixedBits := by
  cases f with
  | formZ => exact fieldNNN_toNat w
  | formX => exact fieldNN_toNat w
  | formXY => exact fieldN_toNat w
  | formA | formXI | formXYN => exact (Nat.mod_one _).symm

/-- A row looks at the family nibble and at its format's fixed bits. -/
theorem row_mask (o : Op) : o.row.mask.toNat = 0xF000 ||| (2 ^ o.shape.fixedBits - 1) := by cases o <;> rfl

theorem row_pattern (o : Op) :
    o.row.pattern.toNat = fieldF o.row.pattern * 4096 + o.shape.fixedPart o.row.pattern := by cases o <;> rfl

/-- A word selects a row when it has the row's family and fixed bits (R90). -/
theorem selects_iff_fields (o : Op) (w : Word) : o.row.selects w = true ↔
    fieldF w = fieldF o.row.pattern ∧ o.shape.fixedPart w = o.shape.fixedPart o.row.pattern := by
  have hbits : o.shape.fixedBits ≤ 12 := by cases o <;> decide
  have hpow : 2 ^ o.shape.fixedBits ≤ 2 ^ 12 := Nat.pow_le_pow_right (by decide) hbits
  have hlow (v : Word) : o.shape.fixedPart v < 4096 := by
    rw [fixedPart_eq_mod]
    exact lt_of_lt_of_le (Nat.mod_lt _ (Nat.two_pow_pos _)) hpow
  have := hlow w
  have := hlow o.row.pattern
  rw [selects_iff, row_mask, and_rowMask _ _ w.isLt hbits, row_pattern, ← fieldF_eq, ← fixedPart_eq_mod]
  omega

/-- A row without operands is selected by its pattern alone. -/
theorem eq_pattern_of_selects {o : Op} {w : Word} (hmask : o.row.mask = BitVec.allOnes 16)
    (h : o.row.selects w = true) : w = o.row.pattern := by
  rw [Row.selects, hmask, BitVec.and_allOnes, beq_iff_eq] at h
  exact h

/-- Two rows that a word selects have the same pattern wherever both of them look. -/
theorem patterns_agree {r q : Row} {w : Word} (hr : r.selects w = true) (hq : q.selects w = true) :
    r.mask &&& q.mask &&& (r.pattern ^^^ q.pattern) = 0 := by
  rw [Row.selects, beq_iff_eq] at hr hq
  rw [← hr, ← hq]
  ext i
  simp only [BitVec.getElem_and, BitVec.getElem_xor, BitVec.ofNat_eq_ofNat, BitVec.getElem_zero]
  have hbit : ∀ a b c : Bool, (b && c && (a && b ^^ a && c)) = false := by decide
  exact hbit _ _ _

/-- No word selects two rows (R90). -/
theorem selects_unique {o p : Op} {w : Word} (ho : o.row.selects w = true) (hp : p.row.selects w = true) : o = p :=
  (rows_differ o (op_mem_all o) p (op_mem_all p)).resolve_right fun h => h (patterns_agree ho hp)

end Sys2Proof
end

section
/-! PROOFS. What the two decoders answer (30_encoding.md R92), on a word that selects a row and on one that selects
none. -/

namespace Sys2Proof

/-- The row found first is the only one selected. -/
theorem decode_of_selects {o : Op} {w : Word} (h : o.row.selects w = true) : decode w = .ok (o.shape.build w) := by
  cases hf : Op.all.find? fun o => o.row.selects w with
  | none => exact absurd h (List.find?_eq_none.1 hf o (op_mem_all o))
  | some p =>
    have hp : p.row.selects w = true := List.find?_some (p := fun q : Op => q.row.selects w) hf
    obtain rfl := selects_unique hp h
    simp only [decode, hf]

theorem decode_of_selects_none {w : Word} (h : ∀ o : Op, o.row.selects w = false) :
    decode w = .error (.unsupportedInstruction w) := by
  have hf : (Op.all.find? fun o => o.row.selects w) = none := List.find?_eq_none.2 fun o _ => by simp [h o]
  simp only [decode, hf]

theorem selects_some_or_none (w : Word) :
    (∃ o : Op, o.row.selects w = true) ∨ ∀ o : Op, o.row.selects w = false := by
  by_cases h : ∃ o : Op, o.row.selects w = true
  · exact .inl h
  · exact .inr fun o => Bool.eq_false_iff.2 fun ho => h ⟨o, ho⟩

/-- What decodes is built from the word by the row it selects. -/
theorem decode_eq_ok {w : Word} {i : Instr} (h : decode w = .ok i) :
    ∃ o : Op, o.row.selects w = true ∧ o.shape.build w = i := by
  rcases selects_some_or_none w with ⟨o, ho⟩ | hnone
  · exact ⟨o, ho, Except.ok.inj ((decode_of_selects ho).symm.trans h)⟩
  · cases (decode_of_selects_none hnone).symm.trans h

theorem decodeBytes_of_length_ne {bs : List Byte} (h : bs.length ≠ 2) :
    decodeBytes bs = .error (.notTwoBytes bs.length) := by
  match bs, h with
  | [], _ | [_], _ | _ :: _ :: _ :: _, _ => rfl
  | [_, _], h => exact absurd rfl h

/-- Each row's word goes to the row's branch of the family decoder. -/
theorem decodeByFamily_of_selects {o : Op} {w : Word} (h : o.row.selects w = true) :
    decodeByFamily w = .ok (o.shape.build w) := by
  obtain ⟨hF, hlow⟩ := (selects_iff_fields o w).1 h
  cases o with
  | clearScreen | ret => rw [eq_pattern_of_selects rfl h]; rfl
  | jump | callNNN | storeINNN | jumpV0 | skipEqXNN | skipNeXNN | storeXNN | addXNN | random | drawXYN =>
    simp only [decodeByFamily, hF]; rfl
  | skipEqXY | skipNeXY | storeXY | or | and | xor | addXY | sub | shr | subReverse | shl =>
    have hN : (fieldN w).toNat = _ := hlow
    simp only [decodeByFamily, hF, hN]; rfl
  | skipPressedX | skipNotPressedX | readDelayX | waitKeyX | setDelayX | setSoundX | addIX | storeSpriteX
  | storeDecimal | writeToMemory | readFromMemory =>
    have hNN : (fieldNN w).toNat = _ := hlow
    simp only [decodeByFamily, hF, hNN]; rfl

/-- Each branch of the family decoder that gives an instruction has tested the family and the fixed bits of its row. -/
theorem decodeByFamily_cases (w : Word) :
    (∃ i, decodeByFamily w = .ok i ∧ i.op.row.selects w = true) ∨
    decodeByFamily w = .error (.unsupportedInstruction w) := by
  simp only [decodeByFamily, selects_iff_fields]
  split <;> rename_i hF
  -- family 0: the whole word is tested
  case h_1 =>
    split
    · next h => rw [h]; exact .inl ⟨_, rfl, rfl, rfl⟩
    · split
      · next h => rw [h]; exact .inl ⟨_, rfl, rfl, rfl⟩
      · exact .inr rfl
  -- families 5 and 9: the low nibble must be 0
  case h_6 | h_10 =>
    split
    · next hN => exact .inl ⟨_, rfl, by simp only [Instr.op]; exact ⟨hF, hN⟩⟩
    · exact .inr rfl
  -- families 8 and F: nine low nibbles, nine low bytes
  case h_9 | h_16 =>
    split <;> rename_i hlow
    case h_10 => exact .inr rfl
    all_goals exact .inl ⟨_, rfl, by simp only [Instr.op]; exact ⟨hF, hlow⟩⟩
  -- family E: two low bytes
  case h_15 =>
    split <;> rename_i hlow
    case h_3 => exact .inr rfl
    all_goals exact .inl ⟨_, rfl, by simp only [Instr.op]; exact ⟨hF, hlow⟩⟩
  case h_17 => exact .inr rfl
  -- the families of one row each
  all_goals exact .inl ⟨_, rfl, by simp only [Instr.op]; exact ⟨hF, rfl⟩⟩

theorem decodeByFamily_of_selects_none {w : Word} (h : ∀ o : Op, o.row.selects w = false) :
    decodeByFamily w = .error (.unsupportedInstruction w) := by
  rcases decodeByFamily_cases w with ⟨i, -, hi⟩ | herr
  · exact absurd hi (Bool.eq_false_iff.1 (h i.op))
  · exact herr

end Sys2Proof
end

section
/-! PROOFS. `EncodeSelectsRow` of every instruction. -/

namespace Sys2Proof.Laws.EncodeSelectsRow

theorem everyInstr : ∀ i : Instr, Statement i
  | .clearScreen => clearScreen
  | .ret => ret
  | .jump nnn => jump nnn
  | .callNNN nnn => callNNN nnn
  | .skipEqXNN x nn => skipEqXNN x nn
  | .skipNeXNN x nn => skipNeXNN x nn
  | .skipEqXY x y => skipEqXY x y
  | .storeXNN x nn => storeXNN x nn
  | .addXNN x nn => addXNN x nn
  | .storeXY x y => storeXY x y
  | .or x y => or x y
  | .and x y => and x y
  | .xor x y => xor x y
  | .addXY x y => addXY x y
  | .sub x y => sub x y
  | .shr x y => shr x y
  | .subReverse x y => subReverse x y
  | .shl x y => shl x y
  | .skipNeXY x y => skipNeXY x y
  | .storeINNN nnn => storeINNN nnn
  | .jumpV0 nnn => jumpV0 nnn
  | .random x nn => random x nn
  | .drawXYN x y n => drawXYN x y n
  | .skipPressedX x => skipPressedX x
  | .skipNotPressedX x => skipNotPressedX x
  | .readDelayX x => readDelayX x
  | .waitKeyX x => waitKeyX x
  | .setDelayX x => setDelayX x
  | .setSoundX x => setSoundX x
  | .addIX x => addIX x
  | .storeSpriteX x => storeSpriteX x
  | .storeDecimal x => storeDecimal x
  | .writeToMemory x => writeToMemory x
  | .readFromMemory x => readFromMemory x

end Sys2Proof.Laws.EncodeSelectsRow
end

section
/-! PROOFS. Encoding against the fields (30_encoding.md R89): what is packed is read back, and the fields of a word that
has a row's family and fixed bits pack to the word. -/

namespace Sys2Proof

/-! ### The fields of a packed word -/

@[simp] theorem fieldNNN_packA (o : Op) (nnn : Addr) : fieldNNN (packA o nnn) = nnn := by simp [packA]

@[simp] theorem fieldX_packXI (o : Op) (x : Reg) (nn : Byte) : fieldX (packXI o x nn) = x := by simp [packXI]

@[simp] theorem fieldNN_packXI (o : Op) (x : Reg) (nn : Byte) : fieldNN (packXI o x nn) = nn := by
  rw [packXI, fieldNN_pack4, byte_of_nibbles]

@[simp] theorem fieldX_packX (o : Op) (x : Reg) : fieldX (packX o x) = x := by simp [packX]

@[simp] theorem fieldX_packXY (o : Op) (x y : Reg) : fieldX (packXY o x y) = x := by simp [packXY]

@[simp] theorem fieldY_packXY (o : Op) (x y : Reg) : fieldY (packXY o x y) = y := by simp [packXY]

@[simp] theorem fieldX_packXYN (o : Op) (x y : Reg) (n : Nibble) : fieldX (packXYN o x y n) = x := by simp [packXYN]

@[simp] theorem fieldY_packXYN (o : Op) (x y : Reg) (n : Nibble) : fieldY (packXYN o x y n) = y := by simp [packXYN]

@[simp] theorem fieldN_packXYN (o : Op) (x y : Reg) (n : Nibble) : fieldN (packXYN o x y n) = n := by simp [packXYN]

/-- The row of an instruction builds it from the word it encodes to. -/
theorem build_encode (i : Instr) : i.op.shape.build (encode i) = i := by
  cases i <;> simp [Instr.op, Op.shape, Shape.build, encode]

/-! ### A word packed from its fields -/

section fields
variable {o : Op} {w : Word} (hF : fieldF w = fieldF o.row.pattern)
include hF

theorem nibble_three : o.nibble 3 = w.toNat / 4096 := by
  rw [← fieldF_eq, hF]; rfl

theorem packA_fields : packA o (fieldNNN w) = w := by
  have := w.isLt
  apply BitVec.eq_of_toNat_eq
  rw [packA, pack12_toNat, nibble_three hF, fieldNNN_toNat]; omega

theorem packXI_fields : packXI o (fieldX w) (fieldNN w) = w := by
  have := w.isLt
  apply BitVec.eq_of_toNat_eq
  rw [packXI, pack4_toNat, nibble_three hF, fieldX_val, fieldNN_toNat]; omega

theorem packX_fields (hNN : fieldNN w = fieldNN o.row.pattern) : packX o (fieldX w) = w := by
  have := w.isLt
  have hlow := congrArg BitVec.toNat hNN
  simp only [fieldNN_toNat] at hlow
  apply BitVec.eq_of_toNat_eq
  rw [packX, pack4_toNat, nibble_three hF, fieldX_val]
  simp only [Op.nibble, bitsOf]; omega

theorem packXY_fields (hN : fieldN w = fieldN o.row.pattern) : packXY o (fieldX w) (fieldY w) = w := by
  have := w.isLt
  have hlow := congrArg BitVec.toNat hN
  simp only [fieldN_toNat] at hlow
  apply BitVec.eq_of_toNat_eq
  rw [packXY, pack4_toNat, nibble_three hF, fieldX_val, fieldY_val]
  simp only [Op.nibble, bitsOf]; omega

theorem packXYN_fields : packXYN o (fieldX w) (fieldY w) (fieldN w) = w := by
  have := w.isLt
  apply BitVec.eq_of_toNat_eq
  rw [packXYN, pack4_toNat, nibble_three hF, fieldX_val, fieldY_val, fieldN_toNat]; omega

end fields

/-- What a row builds from a word that selects it encodes to the word. -/
theorem encode_build {o : Op} {w : Word} (h : o.row.selects w = true) : encode (o.shape.build w) = w := by
  obtain ⟨hF, hlow⟩ := (selects_iff_fields o w).1 h
  cases o with
  | clearScreen | ret => exact (eq_pattern_of_selects rfl h).symm
  | jump | callNNN | storeINNN | jumpV0 => exact packA_fields hF
  | skipEqXNN | skipNeXNN | storeXNN | addXNN | random => exact packXI_fields hF
  | drawXYN => exact packXYN_fields hF
  | skipEqXY | skipNeXY | storeXY | or | and | xor | addXY | sub | shr | subReverse | shl =>
    exact packXY_fields hF (BitVec.eq_of_toNat_eq hlow)
  | skipPressedX | skipNotPressedX | readDelayX | waitKeyX | setDelayX | setSoundX | addIX | storeSpriteX
  | storeDecimal | writeToMemory | readFromMemory =>
    exact packX_fields hF (BitVec.eq_of_toNat_eq hlow)

/-! ### Decoding and encoding -/

theorem decode_encode (i : Instr) : decode (encode i) = .ok i := by
  rw [decode_of_selects (Laws.EncodeSelectsRow.everyInstr i), build_encode]

theorem encode_of_decode {w : Word} {i : Instr} (h : decode w = .ok i) : encode i = w := by
  obtain ⟨o, ho, rfl⟩ := decode_eq_ok h
  exact encode_build ho

end Sys2Proof
end

section
/-! PROOFS. The written form (30_encoding.md R100): a format reads a list of numbers exactly when it is the operands of
what is read. -/

namespace Sys2Proof

theorem checkReg_eq_ok {n : Nat} {x : Reg} : checkReg n = .ok x ↔ n = x.val := by
  unfold checkReg
  split
  · simp [Fin.ext_iff]
  · next h => exact iff_of_false nofun fun hn => h (hn ▸ x.isLt)

/-- A number read into a field by its bound is the number that the field holds. -/
theorem ofNat_bounded_eq_ok {k n : Nat} {e : IllFormed} {b : BitVec k} :
    (if n < 2 ^ k then Except.ok (BitVec.ofNat k n) else .error e) = .ok b ↔ n = b.toNat := by
  split
  · next h => simp [← BitVec.toNat_inj, Nat.mod_eq_of_lt h]
  · next h => exact iff_of_false nofun fun hn => h (hn ▸ b.isLt)

theorem checkByte_eq_ok {n : Nat} {b : Byte} : checkByte n = .ok b ↔ n = b.toNat :=
  ofNat_bounded_eq_ok (k := 8)

theorem checkAddr_eq_ok {n : Nat} {a : Addr} : checkAddr n = .ok a ↔ n = a.toNat :=
  ofNat_bounded_eq_ok (k := 12)

theorem checkNibble_eq_ok {n : Nat} {b : Nibble} : checkNibble n = .ok b ↔ n = b.toNat :=
  ofNat_bounded_eq_ok (k := 4)

section except
variable {ε α β : Type} {e : Except ε α} {b : β}

theorem except_bind_eq_ok {f : α → Except ε β} : e.bind f = .ok b ↔ ∃ a, e = .ok a ∧ f a = .ok b := by
  cases e <;> simp [Except.bind]

theorem except_map_eq_ok {f : α → β} : e.map f = .ok b ↔ ∃ a, e = .ok a ∧ f a = b := by
  cases e <;> simp [Except.map]

end except

/-- The numbers that a format makes an instruction of: the operands it gives its constructor, in field order. -/
def Shape.Reads : Shape → List Nat → Instr → Prop
  | .formZ i, ns, j => ns = [] ∧ i = j
  | .formA mk, ns, j => ∃ nnn : Addr, ns = [nnn.toNat] ∧ mk nnn = j
  | .formXI mk, ns, j => ∃ (x : Reg) (nn : Byte), ns = [x.val, nn.toNat] ∧ mk x nn = j
  | .formX mk, ns, j => ∃ x : Reg, ns = [x.val] ∧ mk x = j
  | .formXY mk, ns, j => ∃ x y : Reg, ns = [x.val, y.val] ∧ mk x y = j
  | .formXYN mk, ns, j => ∃ (x y : Reg) (n : Nibble), ns = [x.val, y.val, n.toNat] ∧ mk x y n = j

theorem check_eq_ok {f : Shape} {ns : List Nat} {i : Instr} : f.check ns = .ok i ↔ f.Reads ns i := by
  cases f with
  | formZ =>
    match ns with
    | [] | _ :: _ => simp [Shape.check, Shape.Reads]
  | formA | formX =>
    match ns with
    | [_] => simp [Shape.check, Shape.Reads, except_map_eq_ok, checkAddr_eq_ok, checkReg_eq_ok]
    | [] | _ :: _ :: _ => simp [Shape.check, Shape.Reads]
  | formXI | formXY =>
    match ns with
    | [_, _] =>
      simp [Shape.check, Shape.Reads, except_bind_eq_ok, except_map_eq_ok, checkByte_eq_ok, checkReg_eq_ok,
        and_assoc]
    | [] | [_] | _ :: _ :: _ :: _ => simp [Shape.check, Shape.Reads]
  | formXYN =>
    match ns with
    | [_, _, _] =>
      simp [Shape.check, Shape.Reads, except_bind_eq_ok, except_map_eq_ok, checkNibble_eq_ok, checkReg_eq_ok,
        and_assoc]
    | [] | [_] | [_, _] | _ :: _ :: _ :: _ :: _ => simp [Shape.check, Shape.Reads]

theorem reads_toRaw (i : Instr) : i.op.shape.Reads i.operands i := by
  cases i with
  | clearScreen | ret => exact ⟨rfl, rfl⟩
  | jump | callNNN | storeINNN | jumpV0 => exact ⟨_, rfl, rfl⟩
  | skipEqXNN | skipNeXNN | storeXNN | addXNN | random => exact ⟨_, _, rfl, rfl⟩
  | skipEqXY | skipNeXY | storeXY | or | and | xor | addXY | sub | shr | subReverse | shl => exact ⟨_, _, rfl, rfl⟩
  | drawXYN => exact ⟨_, _, _, rfl, rfl⟩
  | skipPressedX | skipNotPressedX | readDelayX | waitKeyX | setDelayX | setSoundX | addIX | storeSpriteX
  | storeDecimal | writeToMemory | readFromMemory => exact ⟨_, rfl, rfl⟩

theorem toRaw_of_reads {o : Op} {ns : List Nat} {i : Instr} (h : o.shape.Reads ns i) : i.toRaw = ⟨o, ns⟩ := by
  cases o with
  | clearScreen | ret => obtain ⟨rfl, rfl⟩ := h; rfl
  | jump | callNNN | storeINNN | jumpV0 => obtain ⟨_, rfl, rfl⟩ := h; rfl
  | skipEqXNN | skipNeXNN | storeXNN | addXNN | random => obtain ⟨_, _, rfl, rfl⟩ := h; rfl
  | skipEqXY | skipNeXY | storeXY | or | and | xor | addXY | sub | shr | subReverse | shl =>
    obtain ⟨_, _, rfl, rfl⟩ := h; rfl
  | drawXYN => obtain ⟨_, _, _, rfl, rfl⟩ := h; rfl
  | skipPressedX | skipNotPressedX | readDelayX | waitKeyX | setDelayX | setSoundX | addIX | storeSpriteX
  | storeDecimal | writeToMemory | readFromMemory => obtain ⟨_, rfl, rfl⟩ := h; rfl

end Sys2Proof
end

section
/-! PROOFS. The obligations of the encoding's family (30_encoding.md): the table, its two decoders, the round trips. -/

namespace Sys2Proof

/-- Settles O5: each direction is the round trip of words, with the bytes of a word between. -/
theorem decodeAndEncodeAreInverse : Obligations.DecodeAndEncodeAreInverse := by
  unfold Obligations.DecodeAndEncodeAreInverse
  refine ⟨fun i => ?_, fun b0 b1 i h => ?_⟩
  · simp only [encodeBytes, decodeBytes, wordOfBytes_bytesOfWord, decode_encode]
  · have hword : encode i = wordOfBytes b0 b1 := encode_of_decode h
    simp only [encodeBytes, hword, bytesOfWord_wordOfBytes]

/-- Settles O6: on a word that selects a row both decoders build its instruction, on any other both carry the word. -/
theorem tableDecoderIsFamilyDecoder : Obligations.TableDecoderIsFamilyDecoder := by
  unfold Obligations.TableDecoderIsFamilyDecoder
  intro w
  rcases selects_some_or_none w with ⟨o, ho⟩ | hnone
  · rw [decode_of_selects ho, decodeByFamily_of_selects ho]
  · rw [decode_of_selects_none hnone, decodeByFamily_of_selects_none hnone]

/-- Settles O7: two rows differ in a bit that both look at. -/
theorem opcodeRowsAreDisjoint : Obligations.OpcodeRowsAreDisjoint := by
  unfold Obligations.OpcodeRowsAreDisjoint
  exact ⟨fun _ _ _ ho hp => selects_unique ho hp, op_mem_all⟩

/-- Settles O8: by whether the word selects a row. -/
theorem undecodedWordsAreCarried : Obligations.UndecodedWordsAreCarried := by
  unfold Obligations.UndecodedWordsAreCarried
  refine ⟨fun w => ?_, fun _ => decodeBytes_of_length_ne⟩
  rcases selects_some_or_none w with ⟨o, ho⟩ | hnone
  · exact .inl ⟨o.shape.build w, decode_of_selects ho, by rwa [op_build]⟩
  · exact .inr ⟨decode_of_selects_none hnone, hnone⟩

/-- Settles O9, on the spec's own words. -/
theorem wordsOfTheSpecDecode : Obligations.WordsOfTheSpecDecode := by
  unfold Obligations.WordsOfTheSpecDecode
  decide

/-- Settles O10: what a row's format reads is an instruction of that row with those operands. -/
theorem writtenInstructionsReadBack : Obligations.WrittenInstructionsReadBack := by
  unfold Obligations.WrittenInstructionsReadBack
  exact ⟨fun i => check_eq_ok.2 (reads_toRaw i), fun _ _ h => toRaw_of_reads (check_eq_ok.1 h)⟩

end Sys2Proof
end

section
/-! PROOFS. The frame of an instruction, said once of every instruction (40_step_cycle.md R119): what it changes beside
`V`, `PC`, `STATUS` and memory. -/

namespace Sys2Proof.Machine
open Sys2Proof.Claims

/-- The state of the tick sequencer (R36, R37) with the clock it reads (R257). -/
def State.sequencer (s : State) : Fin 8 × Feed Nat × Nat × Nat := (s.tickCount, s.clock, s.lastUs, s.accUs)

theorem sequencer_eq_iff (s t : State) : t.sequencer = s.sequencer ↔
    t.tickCount = s.tickCount ∧ t.clock = s.clock ∧ t.lastUs = s.lastUs ∧ t.accUs = s.accUs := by
  simp only [State.sequencer, Prod.mk.injEq]

/-- `s` with what `i` names, of the state beside `V`, `PC`, `STATUS` and memory, taken from `t` (R28 to R31, R39 to
R42). -/
def takeNamed (s t : State) : Instr → State
  | .storeINNN _ | .addIX _ | .storeSpriteX _ | .writeToMemory _ | .readFromMemory _ => { s with i := t.i }
  | .callNNN _ | .ret => { s with sp := t.sp, stack := t.stack }
  | .setDelayX _ => { s with dt := t.dt }
  | .setSoundX _ => { s with st := t.st }
  | .random _ _ => { s with random := t.random }
  | .clearScreen | .drawXYN _ _ _ => { s with display := t.display }
  | .skipPressedX _ | .skipNotPressedX _ | .waitKeyX _ => { s with keypad := t.keypad }
  | _ => s

/-- What an instruction leaves alone: all it does not name, but `V`, `PC`, `STATUS` and memory (R119). -/
theorem exec_frame {i : Instr} {s t : State} (ht : exec i s = .next t) :
    t = { takeNamed s t i with v := t.v, pc := t.pc, status := t.status, mem := t.mem } := by
  cases i with
  | storeXNN | addXNN | storeXY | or | and | xor | addXY | sub | subReverse | shr | shl | storeINNN | addIX | random
  | readDelayX | setDelayX | setSoundX =>
    cases ht
    rw [advancePc_frame]; rfl
  | skipEqXNN | skipNeXNN | skipEqXY | skipNeXY =>
    cases ht
    rw [skipIf_frame]; rfl
  | skipPressedX | skipNotPressedX =>
    cases ht
    rw [skipOnKey_frame]; rfl
  | waitKeyX =>
    cases ht
    rw [settleWait_frame]; rfl
  | jump =>
    cases ht
    rfl
  | callNNN nnn =>
    rcases execCallNNN_cases nnn s with ⟨-, -, he⟩ | ⟨-, he⟩ <;> cases he.symm.trans ht <;> rfl
  | ret =>
    rcases execReturn_cases s with ⟨-, -, he⟩ | ⟨-, he⟩ <;> cases he.symm.trans ht
    · rfl
    · rw [advancePc_frame]; rfl
  | jumpV0 nnn =>
    rcases execJumpV0_cases nnn s with ⟨-, he⟩ | ⟨_, -, he⟩ <;> cases he.symm.trans ht <;> rfl
  | storeSpriteX x =>
    rcases execStoreSpriteX_cases x s with ⟨-, he⟩ | ⟨_, -, he⟩ <;> cases he.symm.trans ht
    · rfl
    · rw [advancePc_frame]; rfl
  | storeDecimal x =>
    rcases execStoreDecimal_cases x s with ⟨-, he⟩ | ⟨_, -, he⟩ <;> cases he.symm.trans ht
    · rfl
    · rw [advancePc_frame]; rfl
  | writeToMemory x =>
    rcases execWriteToMemory_cases x s with ⟨-, he⟩ | ⟨_, -, he⟩ <;> cases he.symm.trans ht
    · rfl
    · rw [advancePc_frame]; rfl
  | readFromMemory x =>
    rcases execReadFromMemory_cases x s with ⟨-, he⟩ | ⟨_, -, he⟩ <;> cases he.symm.trans ht
    · rfl
    · rw [advancePc_frame]; rfl
  | clearScreen =>
    rcases execClearScreen_cases s with ⟨-, he⟩ | ⟨-, he⟩ <;> cases he.symm.trans ht
    · rfl
    · rw [advancePc_frame]; rfl
  | drawXYN x y n =>
    rcases execDrawXYN_cases x y n s with ⟨-, he⟩ | ⟨_, -, ⟨-, he⟩ | ⟨_, -, he⟩⟩ <;> cases he.symm.trans ht
    · rfl
    · rfl
    · rw [advancePc_frame]; rfl

/-- No instruction changes the parameter `FONT` of memory (log 24): its stores only list cells. -/
theorem exec_font {i : Instr} {s t : State} (ht : exec i s = .next t) : t.mem.font = s.mem.font := by
  rcases exec_mem_cases ht with h | ⟨bytes, -, h⟩
  · rw [h]
  · rw [h, writeBytes_font]

/-! ### What an instruction does not name -/

section takeNamed
variable {s t : State} {i : Instr}

theorem takeNamed_i (h : writesIndex i = false) : (takeNamed s t i).i = s.i := by
  cases i with
  | storeINNN | addIX | storeSpriteX | writeToMemory | readFromMemory => cases h
  | _ => rfl

theorem takeNamed_stack (h : usesStack i = false) :
    (takeNamed s t i).sp = s.sp ∧ (takeNamed s t i).stack = s.stack := by
  cases i with
  | callNNN | ret => cases h
  | _ => exact ⟨rfl, rfl⟩

theorem takeNamed_dt (h : ∀ x, i ≠ .setDelayX x) : (takeNamed s t i).dt = s.dt := by
  cases i with
  | setDelayX x => exact absurd rfl (h x)
  | _ => rfl

theorem takeNamed_st (h : ∀ x, i ≠ .setSoundX x) : (takeNamed s t i).st = s.st := by
  cases i with
  | setSoundX x => exact absurd rfl (h x)
  | _ => rfl

theorem takeNamed_random (h : ∀ x nn, i ≠ .random x nn) : (takeNamed s t i).random = s.random := by
  cases i with
  | random x nn => exact absurd rfl (h x nn)
  | _ => rfl

theorem takeNamed_display (hc : i ≠ .clearScreen) (hd : ∀ x y n, i ≠ .drawXYN x y n) :
    (takeNamed s t i).display = s.display := by
  cases i with
  | clearScreen => exact absurd rfl hc
  | drawXYN x y n => exact absurd rfl (hd x y n)
  | _ => rfl

theorem takeNamed_keypad (hp : ∀ x, i ≠ .skipPressedX x) (hn : ∀ x, i ≠ .skipNotPressedX x)
    (hw : ∀ x, i ≠ .waitKeyX x) : (takeNamed s t i).keypad = s.keypad := by
  cases i with
  | skipPressedX x => exact absurd rfl (hp x)
  | skipNotPressedX x => exact absurd rfl (hn x)
  | waitKeyX x => exact absurd rfl (hw x)
  | _ => rfl

theorem takeNamed_sequencer : (takeNamed s t i).sequencer = s.sequencer := by
  cases i <;> rfl

theorem takeNamed_settings : (takeNamed s t i).settings = s.settings := by
  cases i <;> rfl

theorem takeNamed_reports : (takeNamed s t i).reports = s.reports := by
  cases i <;> rfl

end takeNamed

section exec
variable {i : Instr} {s t : State} (ht : exec i s = .next t)
include ht

/-- No instruction makes a query (R112, R253). -/
theorem exec_sequencer : t.sequencer = s.sequencer := by
  rw [exec_frame ht]
  exact takeNamed_sequencer

/-- No instruction changes the settings (R34). -/
theorem exec_settings : t.settings = s.settings := by
  rw [exec_frame ht]
  exact takeNamed_settings

/-- Only a call or a return touches `SP` and `STACK` (R31). -/
theorem exec_stack (h : usesStack i = false) : t.sp = s.sp ∧ t.stack = s.stack := by
  rw [exec_frame ht]
  exact takeNamed_stack h

end exec

end Sys2Proof.Machine
end

section
/-! PROOFS. The step's parts (40_step_cycle.md R111, R112, R117): when the fetch raises, what the tick query makes of
the sequencer, and that a step of a running machine always answers a next state. -/

namespace Sys2Proof.Machine
open Sys2Proof.Claims

/-! ### The fetch and the unsupported word -/

/-- The fetch raises exactly at the last byte (R111). -/
theorem fetchWord_eq_none_iff (s : State) : fetchWord s = none ↔ s.pc = 0xFFF := by
  have hlast : s.pc = 0xFFF ↔ ¬ s.pc.toNat ≤ 0xFFE := by bv_omega
  rw [fetchWord_eq, hlast]
  split
  · next h => simp [h]
  · next h => simp [h]

/-- A running machine raises where its fetch does (R111). -/
theorem step_of_fetch_none {s : State} (hs : s.status = .running) (hf : fetchWord s = none) :
    step s = .next (raise (.contractViolation .bounds) s) := by
  simp only [step_running hs, hf]

/-- A word that does not decode is met after the tick phase (R117). -/
theorem step_of_decode_error {s : State} {w : Word} {e : DecodeError} (hs : s.status = .running)
    (hf : fetchWord s = some w) (hd : decode w = .error e) : step s = .next (unsupported w (tickPhase s)) := by
  simp only [step_running hs, hf, hd]

/-- What an unsupported word leaves alone: everything but `PC`, `STATUS` and the reports (R117). -/
theorem unsupported_frame (w : Word) (s : State) :
    unsupported w s = { s with pc := (unsupported w s).pc, status := (unsupported w s).status,
                               reports := (unsupported w s).reports } := by
  rcases unsupported_cases w s with ⟨-, h⟩ | ⟨-, h⟩
  · rw [h, advancePc_frame]
  · rw [h]; rfl

/-- A rule that advances from the state it has made, `PC` not written, has the shape of the result statements (R24). -/
theorem advances_advancePc {s e : State} (hpc : e.pc = s.pc) : Advances s e (.next (advancePc e)) := by
  refine ⟨fun h => ?_, fun h => ?_⟩
  · rw [advancePc_of_le (hpc ▸ h), hpc]
  · rw [advancePc_of_ge (hpc ▸ h)]; rfl

/-! ### Enabledness -/

/-- Every instruction answers a next state in every state: no rule faults or is refused (R243). -/
theorem exec_answers (i : Instr) (s : State) : ∃ t, exec i s = .next t := by
  cases i <;> exact ⟨_, rfl⟩

/-- A step of a running machine answers a next state (R110). -/
theorem step_answers {s : State} (hs : s.status = .running) : ∃ t, step s = .next t := by
  cases hf : fetchWord s with
  | none => exact ⟨_, step_of_fetch_none hs hf⟩
  | some w =>
    cases hd : decode w with
    | error e => exact ⟨_, step_of_decode_error hs hf hd⟩
    | ok i => rw [step_of_decode hs hf hd]; exact exec_answers i _

/-! ### The tick query -/

/-- The tick phase leaves the sequencer as its query does (R112): the tick itself writes the timers alone. -/
theorem tickPhase_sequencer (s : State) : (tickPhase s).sequencer = (shouldTick s).2.sequencer := by
  rcases tickPhase_cases s with ⟨-, h⟩ | ⟨-, h⟩
  · rw [h]
  · rw [h]; rfl

/-- The query in instruction-count mode (R249). -/
theorem shouldTick_of_instructionCount {s : State} (h : s.settings.timerMode = .instructionCount) :
    shouldTick s = queryCount s := by
  simp only [shouldTick, h]

/-- The query in wall-clock mode (R250). -/
theorem shouldTick_of_wallClock {s : State} (h : s.settings.timerMode = .wallClock) :
    shouldTick s = queryClock s := by
  simp only [shouldTick, h]

/-- A step whose fetch does not raise makes one query, whatever its word is (R112). -/
theorem step_sequencer {s t : State} {w : Word} (hf : fetchWord s = some w) (ht : step s = .next t) :
    t.sequencer = (shouldTick s).2.sequencer := by
  rw [← tickPhase_sequencer]
  obtain ⟨-, ⟨hnone, -⟩ | ⟨w, -, ⟨_, -, rfl⟩ | ⟨i, -, he⟩⟩⟩ := step_next_cases ht
  · cases hf.symm.trans hnone
  · rw [unsupported_frame]; rfl
  · exact exec_sequencer he

end Sys2Proof.Machine
end

section
/-! PROOFS. Runs with gas (40_step_cycle.md R121, R123): how a run stands, what its gas counts, and that a longer run
goes through the shorter one. -/

namespace Sys2Proof.Machine

/-! ### How a run stands -/

theorem runEnd_eq_gasSpent_iff (s : State) : s.runEnd = .gasSpent ↔ s.status = .running := by
  cases h : s.status <;> simp [State.runEnd, h]

theorem runEnd_eq_halted_iff (s : State) (c : Cause) : s.runEnd = .halted c ↔ s.status = .halted c := by
  cases h : s.status <;> simp [State.runEnd, h]

theorem runEnd_eq_hanging_iff (s : State) (x : Reg) : s.runEnd = .hanging x ↔ s.status = .held x := by
  cases h : s.status <;> simp [State.runEnd, h]

/-! ### The gas of a run -/

/-- A machine that does not run uses no gas (R121). -/
theorem runGas_of_not_running {s : State} (gas : Nat) (h : s.status ≠ .running) : s.runGas gas = (s, gas) := by
  cases hs : s.status with
  | running => exact absurd hs h
  | held x => exact runGas_held gas hs
  | halted c => exact runGas_halted gas hs

/-- The host's run takes its first step and goes on from there. -/
theorem core_run_succ {s t : State} (k : Nat) (ht : step s = .next t) : core.run (k + 1) s = core.run k t := by
  have hstep : core.step s = .next t := ht
  simp only [Host.Core.run, hstep]

/-- A run takes as many steps as it uses gas, each with a next state, and stops running only with its gas spent (R121,
R123). -/
theorem runGas_steps (gas : Nat) (s : State) :
    (s.runGas gas).2 ≤ gas ∧ core.run (gas - (s.runGas gas).2) s = .next (s.runGas gas).1 ∧
      ((s.runGas gas).1.status = .running → (s.runGas gas).2 = 0) := by
  induction gas generalizing s with
  | zero => exact ⟨Nat.le_refl 0, rfl, fun _ => rfl⟩
  | succ gas ih =>
    by_cases hs : s.status = .running
    · obtain ⟨t, ht⟩ := step_answers hs
      obtain ⟨hle, hrun, hspent⟩ := ih t
      rw [runGas_next gas hs ht, Nat.succ_sub hle, core_run_succ _ ht]
      exact ⟨Nat.le_succ_of_le hle, hrun, hspent⟩
    · rw [runGas_of_not_running _ hs, Nat.sub_self]
      exact ⟨Nat.le_refl _, rfl, fun h => absurd h hs⟩

/-- A run with more gas is the run with less, gone on with what that leaves and the rest. -/
theorem runGas_add (gas k : Nat) (s : State) :
    s.runGas (gas + k) = (s.runGas gas).1.runGas ((s.runGas gas).2 + k) := by
  induction gas generalizing s with
  | zero => rfl
  | succ gas ih =>
    by_cases hs : s.status = .running
    · obtain ⟨t, ht⟩ := step_answers hs
      rw [Nat.succ_add, runGas_next _ hs ht, runGas_next _ hs ht]
      exact ih t
    · rw [runGas_of_not_running (gas + 1) hs]

end Sys2Proof.Machine
end

section
/-! PROOFS. The obligations of the step's family (40_step_cycle.md): enabledness, the fetch, the tick query, the
unsupported word, the frame of an instruction and of a step, and the end of a run. -/

namespace Sys2Proof.Machine

/-- Settles O15: by STATUS. -/
theorem stepsAreEnabledExactlyWhenRunning : Obligations.StepsAreEnabledExactlyWhenRunning := by
  unfold Obligations.StepsAreEnabledExactlyWhenRunning
  exact ⟨fun _ => step_answers, fun _ _ => step_halted, fun _ _ => step_held⟩

/-- Settles O17: past the fetch the step's query is the only one, and it is that of the timer mode. -/
theorem everyStepMakesOneTickQuery : Obligations.EveryStepMakesOneTickQuery := by
  unfold Obligations.EveryStepMakesOneTickQuery
  intro s t hs ht
  have hquery (hpc : s.pc ≠ 0xFFF) : t.sequencer = (shouldTick s).2.sequencer := by
    obtain ⟨w, hf⟩ := Option.ne_none_iff_exists'.1 (mt (fetchWord_eq_none_iff s).1 hpc)
    exact step_sequencer hf ht
  refine ⟨fun hpc => ?_, fun hpc hmode => ?_, fun hpc hmode => ?_⟩
  · cases ht.symm.trans (step_of_fetch_none hs ((fetchWord_eq_none_iff s).2 hpc))
    exact ⟨rfl, rfl, rfl, rfl⟩
  · have h := hquery hpc
    rw [shouldTick_of_instructionCount hmode] at h
    exact (sequencer_eq_iff _ t).1 h
  · have h := hquery hpc
    rw [shouldTick_of_wallClock hmode] at h
    exact (sequencer_eq_iff _ t).1 h

/-- Settles O44: by the frame of the instruction, field by field. -/
theorem specialStateChangesOnlyWhereNamed : Obligations.SpecialStateChangesOnlyWhereNamed := by
  unfold Obligations.SpecialStateChangesOnlyWhereNamed
  intro i s t ht
  obtain ⟨htick, hclock, hlast, hacc⟩ := (sequencer_eq_iff s t).1 (exec_sequencer ht)
  refine ⟨?_, exec_stack ht, ?_, ?_, ?_, ?_, ?_, htick, hacc, hlast, hclock, exec_settings ht, exec_font ht, ?_⟩ <;>
    rw [exec_frame ht]
  · exact takeNamed_i
  · exact takeNamed_dt
  · exact takeNamed_st
  · exact takeNamed_random
  · exact takeNamed_display
  · exact takeNamed_keypad
  · exact takeNamed_reports

/-- Settles O50: by what the step comes to; an instruction's part is its frame, after the tick phase. -/
theorem stepKeepsSettingsAndStack : Obligations.StepKeepsSettingsAndStack := by
  unfold Obligations.StepKeepsSettingsAndStack
  intro s t ht
  obtain ⟨-, ⟨-, rfl⟩ | ⟨w, hf, ⟨_, -, rfl⟩ | ⟨i, hd, he⟩⟩⟩ := step_next_cases ht
  · exact ⟨rfl, rfl, fun _ => ⟨rfl, rfl⟩⟩
  · rw [unsupported_frame, tickPhase_frame]
    exact ⟨rfl, rfl, fun _ => ⟨rfl, rfl⟩⟩
  · refine ⟨?_, ?_, fun hplain => ?_⟩
    · rw [exec_settings he, tickPhase_settings]
    · rw [exec_font he, tickPhase_mem]
    · rw [← tickPhase_sp s, ← tickPhase_stack s]
      exact exec_stack he (hplain w i hf hd)

/-- Settles O60: by the steps a run takes; a run that has halted goes no further with more gas. -/
theorem aRunEndsHaltedOrWithItsGasOrHangs : Obligations.ARunEndsHaltedOrWithItsGasOrHangs := by
  unfold Obligations.ARunEndsHaltedOrWithItsGasOrHangs
  refine ⟨fun gas s => ?_, fun s t ⟨gas, left, c, hrun, hend⟩ => ?_⟩
  · obtain ⟨hle, hsteps, hspent⟩ := runGas_steps gas s
    refine ⟨hle, hsteps, fun h => ?_, runEnd_eq_halted_iff _, runEnd_eq_hanging_iff _,
      fun c => runGas_halted gas, fun t x hgas ht hheld => ?_⟩
    · have hrunning := (runEnd_eq_gasSpent_iff _).1 h
      exact ⟨hrunning, hspent hrunning⟩
    · obtain ⟨hs, -⟩ := step_next_cases ht
      obtain ⟨gas, rfl⟩ := Nat.exists_eq_add_of_le' hgas
      rw [runGas_next gas hs ht, runGas_held gas hheld, Nat.add_sub_cancel]
  · have hc : t.status = .halted c := (runEnd_eq_halted_iff t c).1 hend
    refine ⟨⟨c, hc⟩, gas, fun more hmore => ?_⟩
    obtain ⟨k, rfl⟩ := Nat.exists_eq_add_of_le hmore
    rw [runGas_add, hrun, runGas_halted _ hc]

/-- Settles O12: the fetch raises. -/
theorem fetchAtTheLastByteRaises : Obligations.FetchAtTheLastByteRaises := by
  unfold Obligations.FetchAtTheLastByteRaises
  intro s hs hpc
  exact step_of_fetch_none hs ((fetchWord_eq_none_iff s).2 hpc)

/-- Settles O13: by the policy, which the tick phase leaves as it is, with `PC` and the reports. -/
theorem unsupportedWordFollowsThePolicy : Obligations.UnsupportedWordFollowsThePolicy := by
  unfold Obligations.UnsupportedWordFollowsThePolicy
  intro s w hs hpc hw hd
  have hf : fetchWord s = some w := (fetchWord_of_le hpc).trans (congrArg some hw.symm)
  rw [step_of_decode_error hs hf hd]
  rcases unsupported_cases w (tickPhase s) with ⟨hskip, hu⟩ | ⟨hhalt, hu⟩
  · rw [tickPhase_settings] at hskip
    refine ⟨fun h => (nomatch hskip.symm.trans h), fun _ => ?_⟩
    rw [hu, ← tickPhase_reports s, ← tickPhase_pc s]
    exact advances_advancePc (tickPhase_pc s)
  · rw [tickPhase_settings] at hhalt
    refine ⟨fun _ => ?_, fun h => (nomatch hhalt.symm.trans h)⟩
    rw [hu, ← tickPhase_pc s]
    rfl

end Sys2Proof.Machine
end

section
/-! PROOFS. The transfers (41_flow_control.md): what a call and a return answer on each side of the stack policy, and
where `JumpV0` has a target. -/

namespace Sys2Proof.Machine

/-- `s` after a call to `a`: its own address pushed, `SP` one up modulo 16 (R131). -/
def State.afterCall (s : State) (a : Addr) : State :=
  { s with stack := s.stack.set s.sp.val s.pc, sp := s.sp + 1, pc := a }

@[simp] theorem afterCall_sp (s : State) (a : Addr) : (s.afterCall a).sp = s.sp + 1 := rfl

/-- The entry a call pushes is its own address (R131). -/
theorem afterCall_stack_self (s : State) (a : Addr) : (s.afterCall a).stack[s.sp.val] = s.pc :=
  Vector.getElem_set_self _

/-- A call leaves the other entries of the stack (R131). -/
theorem afterCall_stack_of_ne {s : State} {k : Fin 16} (a : Addr) (h : k ≠ s.sp) :
    (s.afterCall a).stack[k.val] = s.stack[k.val] :=
  Vector.getElem_set_ne s.sp.isLt k.isLt (Fin.val_ne_of_ne h.symm)

/-- A call with room, or under `Wrap`, pushes its own address (R131). -/
theorem exec_callNNN_of_room {s : State} (nnn : Addr) (h : s.sp.val < 15 ∨ s.settings.stackPolicy = .wrap) :
    exec (.callNNN nnn) s = .next (s.afterCall nnn) := by
  rcases execCallNNN_cases nnn s with ⟨hsp, hfault, -⟩ | ⟨-, he⟩
  · rw [hsp, hfault] at h
    exact absurd h (by decide)
  · exact he

/-- Under `Fault` a call with `SP = 15` raises (R131). -/
theorem exec_callNNN_of_full {s : State} (nnn : Addr) (hsp : s.sp = 15) (hfault : s.settings.stackPolicy = .fault) :
    exec (.callNNN nnn) s = .next (raise (.contractViolation .stackOverflow) s) := by
  rcases execCallNNN_cases nnn s with ⟨-, -, he⟩ | ⟨hroom, -⟩
  · exact he
  · exact absurd ⟨hsp, hfault⟩ hroom

/-- A return with an entry to pop, or under `Wrap`, pops the entry below `SP` and advances past it (R132). -/
theorem exec_ret_of_entry {s : State} {k : Fin 16} (h : 0 < s.sp.val ∨ s.settings.stackPolicy = .wrap)
    (hk : s.sp = k + 1) : exec .ret s = .next (advancePc { s with sp := k, pc := s.stack[k.val] }) := by
  rcases execReturn_cases s with ⟨hsp, hfault, -⟩ | ⟨-, he⟩
  · rw [hsp, hfault] at h
    exact absurd h (by decide)
  · have hpop : s.sp - 1 = k := by rw [hk, add_sub_cancel_right]
    rw [show exec .ret s = execReturn s from rfl, he]
    simp only [hpop]

/-- Under `Fault` a return with `SP = 0` raises (R132). -/
theorem exec_ret_of_empty {s : State} (hsp : s.sp = 0) (hfault : s.settings.stackPolicy = .fault) :
    exec .ret s = .next (raise (.contractViolation .stackUnderflow) s) := by
  rcases execReturn_cases s with ⟨-, -, he⟩ | ⟨hentry, -⟩
  · exact he
  · exact absurd ⟨hsp, hfault⟩ hentry

/-- `JumpV0` has no target exactly above 0xFFF (R133). -/
theorem jumpTarget_eq_none_iff (nnn : Addr) (v0 : Byte) :
    jumpTarget nnn v0 = none ↔ 0xFFF < nnn.toNat + v0.toNat := by
  simp only [jumpTarget, ite_eq_left_iff, reduceCtorEq, imp_false, not_not, gt_iff_lt]

/-- The target of `JumpV0` is the sum, where it is an address (R133). -/
theorem jumpTarget_eq_some_iff (nnn : Addr) (v0 : Byte) (target : Addr) : jumpTarget nnn v0 = some target ↔
    nnn.toNat + v0.toNat ≤ 0xFFF ∧ BitVec.ofNat 12 (nnn.toNat + v0.toNat) = target := by
  simp only [jumpTarget, Option.ite_none_left_eq_some, Option.some.injEq, gt_iff_lt, not_lt]

end Sys2Proof.Machine
end

section
/-! PROOFS. Nested calls and their returns under `Wrap` (41_flow_control.md R131 corner case 2, R134): each return
undoes one call, as long as the calls inside have left its stack entry alone. -/

namespace Sys2Proof.Machine
open Sys2Proof.Claims

/-- The last of `n + 1` returns, taken apart. -/
theorem returnAll_succ (n : Nat) (s : State) :
    returnAll (n + 1) s = nextOr (returnAll n s) (exec .ret (returnAll n s)) := by
  induction n generalizing s with
  | zero => rfl
  | succ n ih => exact ih (nextOr s (exec .ret s))

/-- `t` is `s` again but for `PC` and the `n` stack entries from `STACK[SP]` on, counted modulo 16. -/
def State.AgreesBeyond (s t : State) (n : Nat) : Prop :=
  t = { s with pc := t.pc, stack := t.stack } ∧ ∀ k : Fin 16, n ≤ (k - s.sp).val → t.stack[k.val] = s.stack[k.val]

/-- An entry `n + 1` or more above `p` is `n` or more above `p + 1`. -/
theorem le_sub_succ_of_succ_le_sub {n : Nat} {k p : Fin 16} (h : n + 1 ≤ (k - p).val) : n ≤ (k - (p + 1)).val := by
  have hne : k - p ≠ 0 := fun h0 => by simp [h0] at h
  rw [sub_add_eq_sub_sub, Fin.val_sub_one_of_ne_zero hne]
  omega

/-- The return that matches a call: if the machine is as the call has left it but for the fewer than 16 entries that the
calls inside may write, the return leads back past the call. -/
theorem ret_undoes_callNNN {s t : State} {a : Addr} {n : Nat} (hwrap : s.settings.stackPolicy = .wrap)
    (hpc : s.pc.toNat ≤ 0xFFD) (hn : n < 16) (ht : (s.afterCall a).AgreesBeyond t n) :
    s.AgreesBeyond (nextOr t (exec .ret t)) (n + 1) ∧ (nextOr t (exec .ret t)).pc = s.pc + 2 := by
  obtain ⟨hframe, hstack⟩ := ht
  have hentry : t.stack[s.sp.val] = s.pc := by
    have hlast : (s.sp - (s.afterCall a).sp).val = 15 := by rw [afterCall_sp, sub_add_cancel_left]; rfl
    rw [hstack s.sp (by omega), afterCall_stack_self]
  have hsp : t.sp = s.sp + 1 := by rw [hframe]; rfl
  have htwrap : t.settings.stackPolicy = .wrap := by rw [hframe]; exact hwrap
  have hpopped : { t with sp := s.sp, pc := t.stack[s.sp.val] } = { s with stack := t.stack } := by
    rw [hentry, hframe]
    rfl
  have hret : nextOr t (exec .ret t) = { s with stack := t.stack, pc := s.pc + 2 } := by
    rw [exec_ret_of_entry (.inr htwrap) hsp, hpopped, nextOr, advancePc_of_le (s := { s with stack := t.stack }) hpc]
  rw [hret]
  refine ⟨⟨rfl, fun k hk => ?_⟩, rfl⟩
  have hne : k ≠ s.sp := fun h => by simp [h] at hk
  exact (hstack k (le_sub_succ_of_succ_le_sub hk)).trans (afterCall_stack_of_ne a hne)

/-- At most sixteen calls, each from a `PC` that a return can advance past, and as many returns (R134). -/
theorem returnAll_callAll (targets : List Addr) (s : State) (hwrap : s.settings.stackPolicy = .wrap)
    (hlen : targets.length ≤ 16) (hpc : ∀ a ∈ (s.pc :: targets).dropLast, a.toNat ≤ 0xFFD) :
    s.AgreesBeyond (returnAll targets.length (callAll targets s)) targets.length ∧
      (targets ≠ [] → (returnAll targets.length (callAll targets s)).pc = s.pc + 2) := by
  induction targets generalizing s with
  | nil => exact ⟨⟨rfl, fun _ _ => rfl⟩, fun h => absurd rfl h⟩
  | cons a as ih =>
    rw [List.dropLast_cons_cons, List.forall_mem_cons] at hpc
    obtain ⟨hfirst, hrest⟩ := hpc
    rw [List.length_cons] at hlen ⊢
    rw [callAll, exec_callNNN_of_room a (.inr hwrap), nextOr, returnAll_succ]
    obtain ⟨hinner, -⟩ := ih (s.afterCall a) hwrap (by omega) hrest
    obtain ⟨hback, hpast⟩ := ret_undoes_callNNN hwrap hfirst (by omega) hinner
    exact ⟨hback, fun _ => hpast⟩

end Sys2Proof.Machine
end

section
/-! PROOFS. The obligations of flow control (41_flow_control.md): the four transfers, and calls unwound by returns. -/

namespace Sys2Proof.Machine

/-- Settles O52: every call is made from a `PC` that a return can advance past, so every return undoes its call. -/
theorem sixteenNestedCallsUnwind : Obligations.SixteenNestedCallsUnwind := by
  unfold Obligations.SixteenNestedCallsUnwind
  intro s targets hwrap hne hlen hpc htargets
  have hcalls : ∀ a ∈ (s.pc :: targets).dropLast, a.toNat ≤ 0xFFD := by
    rw [List.dropLast_cons_of_ne_nil hne]
    exact List.forall_mem_cons.2 ⟨hpc, htargets⟩
  obtain ⟨⟨hframe, -⟩, hpast⟩ := returnAll_callAll targets s hwrap hlen hcalls
  refine ⟨?_, hpast hne, ?_, ?_, ?_⟩ <;> rw [hframe]

/-- Settles O22: its rule has no branch. -/
theorem jumpGoesToItsAddress : Obligations.JumpGoesToItsAddress := by
  unfold Obligations.JumpGoesToItsAddress
  intro nnn s
  rfl

/-- Settles O23: by the room on the stack. -/
theorem callPushesItsOwnAddress : Obligations.CallPushesItsOwnAddress := by
  unfold Obligations.CallPushesItsOwnAddress
  exact fun nnn s => ⟨exec_callNNN_of_room nnn, exec_callNNN_of_full nnn⟩

/-- Settles O24: by the entry on the stack, and then by the advance past it. -/
theorem returnPopsAndAdvances : Obligations.ReturnPopsAndAdvances := by
  unfold Obligations.ReturnPopsAndAdvances
  refine fun s => ⟨fun hentry k hk => ?_, exec_ret_of_empty⟩
  have hsp : s.sp = k + 1 := by
    rw [Fin.ext_iff, Fin.val_add, hk]
    have := s.sp.isLt
    simp only [Fin.val_one]
    omega
  rw [exec_ret_of_entry hentry hsp]
  exact ⟨fun hle => by rw [advancePc_of_le hle], fun hge => by rw [advancePc_of_ge hge]; rfl⟩

/-- Settles O25: by whether the sum is an address. -/
theorem jumpV0AddsRegisterZero : Obligations.JumpV0AddsRegisterZero := by
  unfold Obligations.JumpV0AddsRegisterZero
  intro nnn s
  rcases execJumpV0_cases nnn s with ⟨hnone, he⟩ | ⟨target, hsome, he⟩
  · have hgt := (jumpTarget_eq_none_iff nnn (s.reg 0)).1 hnone
    exact ⟨fun hle => absurd hgt hle.not_gt, fun _ => he⟩
  · obtain ⟨hle, rfl⟩ := (jumpTarget_eq_some_iff nnn (s.reg 0) target).1 hsome
    exact ⟨fun _ => he, fun hgt => absurd hgt hle.not_gt⟩

end Sys2Proof.Machine
end

section
/-! PROOFS. The compare skips (42_conditional_skip.md): the shared pattern, and the obligation of its four users. -/

namespace Sys2Proof.Machine
open Sys2Proof.Claims

/-- The shared skip has the shape of the result statements, whatever its condition (R144). -/
theorem skips_skipIf (cond : Bool) (s : State) : Skips cond s (.next (skipIf cond s)) := by
  rcases skipIf_cases cond s with ⟨rfl, hpc, he⟩ | ⟨rfl, hlo, hhi, he⟩ | ⟨rfl, hpc, he⟩ | ⟨hpc, he⟩ <;> rw [he]
  · exact ⟨nofun, fun _ _ => rfl, fun _ _ _ => by omega, fun _ => by omega⟩
  · exact ⟨nofun, fun _ _ => by omega, fun _ _ _ => rfl, fun _ => by omega⟩
  · exact ⟨fun _ _ => rfl, nofun, nofun, fun _ => by omega⟩
  · exact ⟨fun _ _ => by omega, fun _ _ => by omega, fun _ _ _ => by omega, fun _ => rfl⟩

/-- Settles O26: each of the four is the shared skip on its own condition. -/
theorem conditionalSkipsFollowThePattern : Obligations.ConditionalSkipsFollowThePattern := by
  unfold Obligations.ConditionalSkipsFollowThePattern
  intro x y nn s
  simp only [ne_eq, decide_not]
  exact ⟨skips_skipIf _ s, skips_skipIf _ s, skips_skipIf _ s, skips_skipIf _ s⟩

end Sys2Proof.Machine
end

section
/-! PROOFS. The data moves (43_data_move.md): a byte written to a register as a number, and the obligation of the four
moves. -/

namespace Sys2Proof.Machine
open Sys2Proof.Claims

/-- A rule that writes a byte to one register and advances has the shape of the result statements, for any number whose
residue the byte is. -/
theorem advances_setReg {n : Nat} {b : Byte} (s : State) (x : Reg) (hb : BitVec.ofNat 8 n = b) :
    Advances s { s with v := putReg s x n } (.next (advancePc (s.setReg x b))) := by
  subst hb
  exact advances_advancePc rfl

/-- A byte is the residue of its own number. -/
theorem ofNat_toNat_byte (b : Byte) : BitVec.ofNat 8 b.toNat = b := by
  rw [BitVec.ofNat_toNat, BitVec.setWidth_eq]

/-- The sum of two bytes as a number (R151). -/
theorem ofNat_add_mod_byte (a b : Byte) : BitVec.ofNat 8 ((a.toNat + b.toNat) % 256) = a + b := by
  apply BitVec.eq_of_toNat_eq
  rw [BitVec.toNat_ofNat, BitVec.toNat_add, Nat.mod_mod]

/-- Settles O27: each of the four writes its target and ends with the advance. -/
theorem dataMovesWriteTheirTarget : Obligations.DataMovesWriteTheirTarget := by
  unfold Obligations.DataMovesWriteTheirTarget
  intro x y nn nnn
  refine ⟨fun s => ?storeXNN, fun s => ?addXNN, fun s => ?storeXY, fun s => ?storeINNN⟩
  case storeXNN => exact advances_setReg s x (ofNat_toNat_byte nn)
  case addXNN => exact advances_setReg s x (ofNat_add_mod_byte (s.reg x) nn)
  case storeXY => exact advances_setReg s x (ofNat_toNat_byte (s.reg y))
  case storeINNN =>
    rw [BitVec.ofNat_toNat]
    exact advances_advancePc rfl

end Sys2Proof.Machine
end

section
/-! PROOFS. The ALU (44_alu.md): the operations on bytes as the numbers of the spec, a result written with its flag, and
the obligations of the eight instructions. -/

namespace Sys2Proof.Machine
open Sys2Proof.Claims

/-! ### Results and flags as numbers -/

section numbers
variable (a b : Byte)

/-- The bitwise or of two bytes as a number (R163). -/
theorem ofNat_or_byte : BitVec.ofNat 8 (a.toNat ||| b.toNat) = a ||| b := by
  rw [← BitVec.toNat_or, ofNat_toNat_byte]

/-- The bitwise and of two bytes as a number (R164). -/
theorem ofNat_and_byte : BitVec.ofNat 8 (a.toNat &&& b.toNat) = a &&& b := by
  rw [← BitVec.toNat_and, ofNat_toNat_byte]

/-- The bitwise exclusive or of two bytes as a number (R165). -/
theorem ofNat_xor_byte : BitVec.ofNat 8 (a.toNat ^^^ b.toNat) = a ^^^ b := by
  rw [← BitVec.toNat_xor, ofNat_toNat_byte]

/-- The difference of two bytes as a number, 256 added where it borrows (R167). -/
theorem ofNat_sub_byte :
    BitVec.ofNat 8 (if a.toNat ≥ b.toNat then a.toNat - b.toNat else a.toNat + 256 - b.toNat) = a - b := by
  have ha := a.isLt
  have hb := b.isLt
  apply BitVec.eq_of_toNat_eq
  rw [BitVec.toNat_ofNat, BitVec.toNat_sub]
  split <;> omega

/-- The half of a byte as a number (R168). -/
theorem ofNat_half_byte : BitVec.ofNat 8 (a.toNat / 2) = a >>> 1 := by
  have ha := a.isLt
  apply BitVec.eq_of_toNat_eq
  rw [BitVec.toNat_ofNat, BitVec.toNat_ushiftRight, Nat.shiftRight_eq_div_pow]
  omega

/-- The double of a byte as a number (R170). -/
theorem ofNat_double_byte : BitVec.ofNat 8 (a.toNat * 2 % 256) = a <<< 1 := by
  apply BitVec.eq_of_toNat_eq
  rw [BitVec.toNat_ofNat, BitVec.toNat_shiftLeft, Nat.shiftLeft_eq, Nat.mod_mod]

end numbers

/-- A flag's value as a number (R26). -/
theorem ofNat_flag (p : Prop) [Decidable p] : BitVec.ofNat 8 (if p then 1 else 0) = flagByte (decide p) := by
  by_cases h : p <;> simp [h, flagByte]

/-- The operand of the shifts as a number is the byte the model selects (R171). -/
theorem shiftSource_eq (s : State) (x y : Reg) :
    shiftSource s x y = (shiftOperand s.settings.shiftMode (s.reg x) (s.reg y)).toNat := by
  unfold shiftSource shiftOperand
  cases s.settings.shiftMode <;> rfl

/-! ### The end of a rule with a flag -/

/-- A rule that writes a byte to one register, then a flag to VF, and advances has the shape of the result statements,
for any numbers whose residues the two are (R161). -/
theorem advances_writeWithFlag {n m : Nat} {result flag : Byte} (s : State) (x : Reg)
    (hresult : BitVec.ofNat 8 n = result) (hflag : BitVec.ofNat 8 m = flag) :
    Advances s { s with v := putRegFlag s x n m } (.next (advancePc (writeWithFlag x result flag s))) := by
  subst hresult hflag
  exact advances_advancePc rfl

/-! ### The obligations -/

/-- Settles O28: each of the three writes its target alone and advances. -/
theorem logicWritesNoFlag : Obligations.LogicWritesNoFlag := by
  unfold Obligations.LogicWritesNoFlag
  intro x y
  refine ⟨fun s => ?or, fun s => ?and, fun s => ?xor⟩
  case or => exact advances_setReg s x (ofNat_or_byte (s.reg x) (s.reg y))
  case and => exact advances_setReg s x (ofNat_and_byte (s.reg x) (s.reg y))
  case xor => exact advances_setReg s x (ofNat_xor_byte (s.reg x) (s.reg y))

/-- Settles O29: the sum is written, then the carry. -/
theorem addXYWritesSumAndCarry : Obligations.AddXYWritesSumAndCarry := by
  unfold Obligations.AddXYWritesSumAndCarry
  intro x y s
  exact advances_writeWithFlag s x (ofNat_add_mod_byte (s.reg x) (s.reg y)) (ofNat_flag _)

/-- Settles O30: the two are one subtraction with its operands exchanged. -/
theorem subtractionsWriteDifferenceAndNoBorrow : Obligations.SubtractionsWriteDifferenceAndNoBorrow := by
  unfold Obligations.SubtractionsWriteDifferenceAndNoBorrow
  intro x y
  refine ⟨fun s => ?sub, fun s => ?subReverse⟩
  case sub => exact advances_writeWithFlag s x (ofNat_sub_byte (s.reg x) (s.reg y)) (ofNat_flag _)
  case subReverse => exact advances_writeWithFlag s x (ofNat_sub_byte (s.reg y) (s.reg x)) (ofNat_flag _)

/-- Settles O31: in both modes, on the operand that the mode selects. -/
theorem shiftsWriteTheBitShiftedOut : Obligations.ShiftsWriteTheBitShiftedOut := by
  unfold Obligations.ShiftsWriteTheBitShiftedOut
  intro x y
  simp only [shiftSource_eq]
  refine ⟨fun s => ?shr, fun s => ?shl⟩
  case shr => exact advances_writeWithFlag s x (ofNat_half_byte _) rfl
  case shl => exact advances_writeWithFlag s x (ofNat_double_byte _) rfl

end Sys2Proof.Machine
end

section
/-! PROOFS. The random instruction and the reference random device (45_random.md). -/

namespace Sys2Proof.Machine

/-- A masked byte has no bit outside its mask (R180). -/
theorem masked_and_not_mask (b mask : Byte) : b &&& mask &&& ~~~mask = 0 := by
  rw [BitVec.and_assoc, BitVec.and_not_self]
  exact BitVec.and_zero

/-- A random draw leaves the drawn byte under the mask in `V[x]`, whether its advance raises or not (R180). -/
theorem v_of_exec_random {x : Reg} {nn : Byte} {s t : State} (ht : exec (.random x nn) s = .next t) :
    t.v[x.val] = s.random.next.1 &&& nn := by
  cases ht
  rw [advancePc_v, setReg_v, Vector.getElem_set_self]

/-- Inside its sequence the reference device answers the byte at its index (R182). -/
theorem refRandom_next_of_lt {r : RefRandom} (h : r.idx < r.seq.length) :
    r.next = (r.seq[r.idx], { r with idx := (r.idx + 1) % r.seq.length }) := by
  rw [RefRandom.next, Nat.mod_eq_of_lt h, List.getD_eq_getElem _ _ h]

/-- Settles O32: the draw is the rule's one effect before the advance, the mask law is that of the byte it leaves, and
the device's index needs no reduction before it is read. -/
theorem randomMasksOneDrawnByte : Obligations.RandomMasksOneDrawnByte := by
  unfold Obligations.RandomMasksOneDrawnByte
  refine ⟨fun x nn => ⟨fun s => ?draws, fun s t ht => ?masked⟩, fun r h => ?device⟩
  case draws => exact advances_advancePc rfl
  case masked => rw [v_of_exec_random ht, masked_and_not_mask]
  case device => rw [RandomSource.next, refRandom_next_of_lt h]

end Sys2Proof.Machine
end

section
/-! PROOFS. The two display instructions (46_draw.md R191 to R193): what each answer of the port makes of them. -/

namespace Sys2Proof.Machine
open Sys2Proof.Claims

/-- A blank display has every pixel off, those outside it included (R195). -/
theorem pixel_blank (width height row col : Nat) : (RefDisplay.blank width height).pixel row col = false := by
  simp only [RefDisplay.pixel, RefDisplay.blank, List.getD_eq_getElem?_getD, List.getElem?_replicate]
  split
  · rw [Option.getD_some, List.getElem?_replicate]
    split <;> rfl
  · rfl

/-- `ClearScreen` advances where the port's clear succeeds (R191). -/
theorem exec_clearScreen_of_ok {s : State} (h : s.display.clear.1 = .ok ()) :
    exec .clearScreen s = .next (advancePc { s with display := s.display.clear.2 }) := by
  rcases execClearScreen_cases s with ⟨herr, -⟩ | ⟨-, he⟩
  · cases herr.symm.trans h
  · exact he

/-- `ClearScreen` raises where the port's clear fails (R191). -/
theorem exec_clearScreen_of_err {s : State} (h : s.display.clear.1 = .err) :
    exec .clearScreen s = .next (raise (.ioError .displayClear) { s with display := s.display.clear.2 }) := by
  rcases execClearScreen_cases s with ⟨-, he⟩ | ⟨hok, -⟩
  · exact he
  · cases hok.symm.trans h

/-- The bytes of a range are the reads of its addresses in order (R52). -/
theorem readBytes_eq_map (m : Memory) (a n : Nat) :
    m.readBytes a n = (List.range n).map fun k => m.read (a + k) := by
  induction n generalizing a with
  | zero => rfl
  | succ n ih =>
    rw [Memory.readBytes, ih, List.range_succ_eq_map, List.map_cons, List.map_map]
    simp only [Function.comp_def, Nat.succ_eq_add_one, Nat.add_zero, Nat.add_right_comm a, Nat.add_assoc]

/-- Outside the bounds `MemRead` answers the violation (R52). -/
theorem memRead_of_outside {m : Memory} {a n : Nat} (h : 0xFFF < a ∨ 0x1000 < a + n) : memRead m a n = none := by
  rcases memRead_cases m a n with ⟨ha, hn, -⟩ | ⟨-, hr⟩
  · omega
  · exact hr

/-- Inside the bounds `MemRead` answers the bytes of its range (R52). -/
theorem memRead_of_inside {m : Memory} {a n : Nat} (ha : a ≤ 0xFFF) (hn : a + n ≤ 0x1000) :
    memRead m a n = some ((List.range n).map fun k => m.read (a + k)) := by
  rcases memRead_cases m a n with ⟨-, -, hr⟩ | ⟨hout, -⟩
  · rw [hr, readBytes_eq_map]
  · omega

section drawXYN
variable {x y : Reg} {n : Nibble} {s : State} {rows : List Byte}

/-- `DrawXYN` raises before it draws where its sprite is out of bounds (R192). -/
theorem exec_drawXYN_of_no_rows (h : memRead s.mem s.i.toNat n.toNat = none) :
    exec (.drawXYN x y n) s = .next (raise (.contractViolation .bounds) s) := by
  rcases execDrawXYN_cases x y n s with ⟨-, he⟩ | ⟨rows, hr, -⟩
  · exact he
  · cases hr.symm.trans h

/-- `DrawXYN` raises where the port's draw fails (R192). -/
theorem exec_drawXYN_of_err (h : memRead s.mem s.i.toNat n.toNat = some rows)
    (hd : (s.display.draw (s.reg x) (s.reg y) rows).1 = .err) :
    exec (.drawXYN x y n) s = .next (raise (.ioError .displayDraw)
      { s with display := (s.display.draw (s.reg x) (s.reg y) rows).2 }) := by
  rcases execDrawXYN_cases x y n s with ⟨hr, -⟩ | ⟨_, hr, ⟨-, he⟩ | ⟨_, hok, -⟩⟩ <;> cases hr.symm.trans h
  · exact he
  · cases hok.symm.trans hd

/-- `DrawXYN` writes the collision to VF and advances where the port's draw succeeds (R192). -/
theorem exec_drawXYN_of_ok {hit : Bool} (h : memRead s.mem s.i.toNat n.toNat = some rows)
    (hd : (s.display.draw (s.reg x) (s.reg y) rows).1 = .ok hit) :
    exec (.drawXYN x y n) s = .next (advancePc
      (({ s with display := (s.display.draw (s.reg x) (s.reg y) rows).2 } : State).setReg flagReg (flagByte hit))) := by
  rcases execDrawXYN_cases x y n s with ⟨hr, -⟩ | ⟨_, hr, ⟨herr, -⟩ | ⟨_, hok, he⟩⟩ <;> cases hr.symm.trans h
  · cases herr.symm.trans hd
  · cases hok.symm.trans hd
    exact he

end drawXYN

/-- Settles O33: the instruction by the port's answer, and the reference clear is a blank display. -/
theorem clearScreenCallsTheDisplay : Obligations.ClearScreenCallsTheDisplay := by
  unfold Obligations.ClearScreenCallsTheDisplay
  refine ⟨fun s => ⟨fun hok => ?ok, fun herr => ?err⟩, fun d => ⟨rfl, d.clear, rfl, rfl, rfl, ?off⟩⟩
  case ok =>
    rw [exec_clearScreen_of_ok hok]
    exact advances_advancePc rfl
  case err => exact exec_clearScreen_of_err herr
  case off => exact pixel_blank d.width d.height

/-- Settles O34: the bounds decide whether there are rows, then the port's answer decides the end. -/
theorem drawSendsTheSpriteAndSetsVF : Obligations.DrawSendsTheSpriteAndSetsVF := by
  unfold Obligations.DrawSendsTheSpriteAndSetsVF
  refine ⟨fun x y n s => ⟨fun hout => ?outside, fun hi hn => ?inside⟩, fun _ _ _ _ => ⟨rfl, rfl⟩⟩
  case outside => exact exec_drawXYN_of_no_rows (memRead_of_outside hout)
  case inside =>
    have hrows := memRead_of_inside (m := s.mem) hi hn
    refine ⟨fun herr => exec_drawXYN_of_err hrows herr, fun hit hok => ?_⟩
    rw [exec_drawXYN_of_ok hrows hok]
    exact advances_advancePc rfl

end Sys2Proof.Machine
end

section
/-! PROOFS. Flips on the reference display (46_draw.md R195): one flip undoes itself and commutes with every other, so a
list of flips undoes itself, and a list without repetition flips exactly its pixels. -/

namespace Sys2Proof.Machine

/-! ### One flip -/

/-- Two commuting updates of list elements commute, at the same position and at different ones. -/
theorem modify_comm {α : Type} {f g : α → α} (h : ∀ a, g (f a) = f (g a)) (i j : Nat) (l : List α) :
    (l.modify i f).modify j g = (l.modify j g).modify i f := by
  by_cases hij : i = j
  · rw [hij, List.modify_modify_eq, List.modify_modify_eq, show g ∘ f = f ∘ g from funext h]
  · exact List.modify_modify_ne f g l hij

/-- An update of a list element that undoes itself. -/
theorem modify_modify_self {α : Type} {f : α → α} (h : ∀ a, f (f a) = a) (i : Nat) (l : List α) :
    (l.modify i f).modify i f = l := by
  rw [List.modify_modify_eq, show f ∘ f = id from funext h, List.modify_id]

section flip
variable (d : RefDisplay) (r c : Nat)

@[simp] theorem flip_width : (d.flip r c).width = d.width := rfl
@[simp] theorem flip_height : (d.flip r c).height = d.height := rfl

/-- Flips commute (R195: the order of the loops does not matter). -/
theorem flip_comm (r' c' : Nat) : (d.flip r c).flip r' c' = (d.flip r' c').flip r c :=
  congrArg (RefDisplay.mk d.width d.height)
    (modify_comm (fun line => modify_comm (fun _ => rfl) c c' line) r r' d.pix)

/-- A flip undoes itself. -/
theorem flip_flip : (d.flip r c).flip r c = d :=
  congrArg (RefDisplay.mk d.width d.height) (modify_modify_self (modify_modify_self Bool.not_not c) r d.pix)

/-- A flip changes no other pixel. -/
theorem pixel_flip_of_ne {row col : Nat} (h : (row, col) ≠ (r, c)) :
    (d.flip r c).pixel row col = d.pixel row col := by
  simp only [RefDisplay.pixel, RefDisplay.flip, List.getD_eq_getElem?_getD, List.getElem?_modify]
  cases d.pix[row]? with
  | none => rfl
  | some line =>
    by_cases hr : r = row
    · have hc : c ≠ col := fun hc => h (by rw [hr, hc])
      simp [hr, hc]
    · simp [hr]

end flip

/-- A flip of a pixel the display has changes it. -/
theorem pixel_flip_self {d : RefDisplay} {r c : Nat} (h : d.wf = true) (hr : r < d.height) (hc : c < d.width) :
    (d.flip r c).pixel r c = !d.pixel r c := by
  obtain ⟨-, -, hlen, hlines⟩ := (refDisplay_wf_iff d).1 h
  have hrow : r < d.pix.length := hlen ▸ hr
  have hcol : c < d.pix[r].length := (hlines _ (List.getElem_mem hrow)).symm ▸ hc
  simp [RefDisplay.pixel, RefDisplay.flip, hrow, hcol]

/-! ### A list of flips -/

section flipAll
variable (ps : List (Nat × Nat)) (d : RefDisplay)

/-- A list of flips commutes with one more. -/
theorem flipAll_flip (r c : Nat) :
    (RefDisplay.flipAll ps (d.flip r c)).2 = (RefDisplay.flipAll ps d).2.flip r c := by
  induction ps generalizing d with
  | nil => rfl
  | cons p ps ih =>
    simp only [RefDisplay.flipAll]
    rw [flip_comm, ih]

/-- A list of flips undoes itself (R197). -/
theorem flipAll_flipAll : (RefDisplay.flipAll ps (RefDisplay.flipAll ps d).2).2 = d := by
  induction ps generalizing d with
  | nil => rfl
  | cons p ps ih =>
    simp only [RefDisplay.flipAll]
    rw [← flipAll_flip, flip_flip, ih]

variable {ps d}

/-- A pixel outside the list keeps its value. -/
theorem pixel_flipAll_of_not_mem {row col : Nat} (h : (row, col) ∉ ps) :
    (RefDisplay.flipAll ps d).2.pixel row col = d.pixel row col := by
  induction ps generalizing d with
  | nil => rfl
  | cons p ps ih =>
    obtain ⟨hp, hps⟩ := not_or.1 (mt List.mem_cons.2 h)
    exact (ih hps).trans (pixel_flip_of_ne d p.1 p.2 hp)

/-- In a list without repetition a pixel the display has is flipped once. -/
theorem pixel_flipAll_of_mem {row col : Nat} (hwf : d.wf = true) (hps : ps.Nodup) (h : (row, col) ∈ ps)
    (hrow : row < d.height) (hcol : col < d.width) :
    (RefDisplay.flipAll ps d).2.pixel row col = !d.pixel row col := by
  induction ps generalizing d with
  | nil => cases h
  | cons p ps ih =>
    obtain ⟨hp, hps⟩ := List.nodup_cons.1 hps
    rcases List.mem_cons.1 h with rfl | h
    · exact (pixel_flipAll_of_not_mem hp).trans (pixel_flip_self hwf hrow hcol)
    · have hne : (row, col) ≠ p := fun he => hp (he ▸ h)
      exact (ih (flip_wf p.1 p.2 hwf) hps h hrow hcol).trans
        (congrArg not (pixel_flip_of_ne d p.1 p.2 hne))

/-- In a list without repetition a collision is a lit pixel of the list. -/
theorem flipAll_collides_iff (hps : ps.Nodup) :
    (RefDisplay.flipAll ps d).1 = true ↔ ∃ p ∈ ps, d.pixel p.1 p.2 = true := by
  induction ps generalizing d with
  | nil => simp [RefDisplay.flipAll]
  | cons p ps ih =>
    obtain ⟨hp, hps⟩ := List.nodup_cons.1 hps
    have hsame : ∀ q ∈ ps, (d.flip p.1 p.2).pixel q.1 q.2 = d.pixel q.1 q.2 :=
      fun q hq => pixel_flip_of_ne d p.1 p.2 fun (he : q = p) => hp (he ▸ hq)
    simp only [RefDisplay.flipAll, Bool.or_eq_true, ih hps, List.exists_mem_cons_iff]
    exact or_congr_right (exists_congr fun q => and_congr_right fun hq => by rw [hsame q hq])

/-- A lit pixel that is off at the end has made a collision, whatever the list repeats (R197). -/
theorem flipAll_collides_of_turned_off {row col : Nat} (hlit : d.pixel row col = true)
    (hoff : (RefDisplay.flipAll ps d).2.pixel row col = false) : (RefDisplay.flipAll ps d).1 = true := by
  induction ps generalizing d with
  | nil => cases hlit.symm.trans hoff
  | cons p ps ih =>
    simp only [RefDisplay.flipAll, Bool.or_eq_true]
    by_cases he : (row, col) = p
    · exact .inl (he ▸ hlit)
    · exact .inr (ih ((pixel_flip_of_ne d p.1 p.2 he).trans hlit) hoff)

end flipAll

end Sys2Proof.Machine
end

section
/-! PROOFS. The pixels a sprite lands on (46_draw.md R194, R198), and the obligations of the reference draw. -/

namespace Sys2Proof.Machine
open Sys2Proof.Claims

/-! ### The pixels of a sprite -/

section targets
variable (d : RefDisplay) (px py : Nat)

/-- A draw lands on the same pixels after a flip: they depend on the display's size alone. -/
theorem targets_flip (r c : Nat) (rows : List Byte) : (d.flip r c).targets px py rows = d.targets px py rows := by
  induction rows generalizing py with
  | nil => rfl
  | cons b bs ih => rw [RefDisplay.targets, RefDisplay.targets, ih]; rfl

theorem targets_flipAll (ps : List (Nat × Nat)) (rows : List Byte) :
    (RefDisplay.flipAll ps d).2.targets px py rows = d.targets px py rows := by
  induction ps generalizing d with
  | nil => rfl
  | cons p ps ih => exact (ih _).trans (targets_flip d px py p.1 p.2 rows)

variable {d px py}

/-- The pixels of one sprite row (R194). -/
theorem mem_rowTargets_iff {bits : Byte} {row col : Nat} : (row, col) ∈ d.rowTargets px py bits ↔
    ∃ c, c < 8 ∧ bits.getLsbD (7 - c) = true ∧ row = py % d.height ∧ col = (px + c) % d.width := by
  simp only [RefDisplay.rowTargets, List.mem_filterMap, List.mem_range, Option.ite_none_right_eq_some,
    Option.some.injEq, Prod.mk.injEq, eq_comm (a := row), eq_comm (a := col)]

/-- The pixels of a sprite are those of its rows, each one lower than the row before (R194). -/
theorem mem_targets_iff {rows : List Byte} {p : Nat × Nat} : p ∈ d.targets px py rows ↔
    ∃ r, ∃ h : r < rows.length, p ∈ d.rowTargets px (py + r) rows[r] := by
  induction rows generalizing py with
  | nil => simp [RefDisplay.targets]
  | cons b bs ih =>
    rw [RefDisplay.targets, List.mem_append, ih]
    constructor
    · rintro (hp | ⟨r, hr, hp⟩)
      · exact ⟨0, Nat.succ_pos _, hp⟩
      · exact ⟨r + 1, Nat.succ_lt_succ hr, by rwa [← Nat.add_right_comm, Nat.add_assoc] at hp⟩
    · rintro ⟨_ | r, hr, hp⟩
      · exact .inl hp
      · exact .inr ⟨r, Nat.lt_of_succ_lt_succ hr, by rwa [Nat.add_right_comm, Nat.add_assoc]⟩

/-- Offsets below the modulus land on different residues. -/
theorem add_mod_inj {a k k' m : Nat} (hk : k < m) (hk' : k' < m) (h : (a + k) % m = (a + k') % m) : k = k' :=
  (Nat.ModEq.add_left_cancel' a h).eq_of_lt_of_lt hk hk'

/-- On a display at least 8 wide no two bits of a row land on one pixel (R195). -/
theorem rowTargets_nodup (hw : 8 ≤ d.width) (bits : Byte) : (d.rowTargets px py bits).Nodup := by
  refine List.pairwise_filterMap.2 (List.nodup_range.imp_of_mem fun {c c'} hc hc' hne p hp p' hp' he => hne ?_)
  obtain ⟨-, ⟨⟩⟩ := Option.ite_none_right_eq_some.1 hp
  obtain ⟨-, ⟨⟩⟩ := Option.ite_none_right_eq_some.1 hp'
  have hc := List.mem_range.1 hc
  have hc' := List.mem_range.1 hc'
  exact add_mod_inj (by omega) (by omega) (congrArg Prod.snd he)

/-- On a display at least 8 wide, and as high as the sprite, no two bits of the sprite land on one pixel (R195). -/
theorem targets_nodup (hw : 8 ≤ d.width) {rows : List Byte} (hh : rows.length ≤ d.height) :
    (d.targets px py rows).Nodup := by
  induction rows generalizing py with
  | nil => exact List.nodup_nil
  | cons b bs ih =>
    rw [List.length_cons] at hh
    refine List.nodup_append.2 ⟨rowTargets_nodup hw b, ih (by omega), ?_⟩
    rintro ⟨row, col⟩ hp _ hq rfl
    obtain ⟨-, -, -, hrow, -⟩ := mem_rowTargets_iff.1 hp
    obtain ⟨r, hr, hq⟩ := mem_targets_iff.1 hq
    obtain ⟨-, -, -, hrow', -⟩ := mem_rowTargets_iff.1 hq
    have hsame : (py + 0) % d.height = (py + (1 + r)) % d.height := by
      rw [Nat.add_zero, ← Nat.add_assoc, ← hrow, ← hrow']
    exact absurd (add_mod_inj (by omega) (by omega) hsame) (by omega)

end targets

/-- The model's list of flipped pixels is the pixels the statements call hit (R194). -/
theorem mem_targets_iff_hits {d : RefDisplay} {px py : Byte} {rows : List Byte} {row col : Nat} :
    (row, col) ∈ d.targets px.toNat py.toNat rows ↔ hits d px py rows row col := by
  simp only [mem_targets_iff, mem_rowTargets_iff, hits]
  exact exists_congr fun _ => exists_comm

/-- Settles O58: no pixel is hit twice, so the flips of the sprite are a list without repetition. -/
theorem drawFlipsThePixelsHit : Obligations.DrawFlipsThePixelsHit := by
  unfold Obligations.DrawFlipsThePixelsHit
  intro d px py rows hwf hw hh hlen
  have hnodup : (d.targets px.toNat py.toNat rows).Nodup := targets_nodup hw (hlen.trans hh)
  simp only [← mem_targets_iff_hits]
  refine ⟨fun row col => ⟨fun hhit => ?hit, pixel_flipAll_of_not_mem⟩, ?collision⟩
  case hit =>
    obtain ⟨r, c, -, -, -, rfl, rfl⟩ := mem_targets_iff_hits.1 hhit
    exact pixel_flipAll_of_mem hwf hnodup hhit (Nat.mod_lt _ (by omega)) (Nat.mod_lt _ (by omega))
  case collision => exact (flipAll_collides_iff hnodup).trans Prod.exists

/-- Settles O59: both draws flip the same list of pixels, which undoes itself; a pixel the first turned on, the second
turns off. -/
theorem drawingTwiceRestores : Obligations.DrawingTwiceRestores := by
  unfold Obligations.DrawingTwiceRestores
  intro d px py rows
  have hrestores : ((d.draw px py rows).2.draw px py rows).2 = d := by
    simp only [RefDisplay.draw, targets_flipAll, flipAll_flipAll]
  refine ⟨hrestores, fun ⟨row, col, hoff, hon⟩ => flipAll_collides_of_turned_off hon ?_⟩
  exact (congrArg (·.pixel row col) hrestores).trans hoff

end Sys2Proof.Machine
end

section
/-! PROOFS. The index and memory instructions (47_index_memory.md): what the bounds of R52 and the digits of R51 decide,
and what a bulk transfer makes of memory and of the registers (R203, R204, R206). -/

namespace Sys2Proof.Machine
open Sys2Proof.Claims

/-! ### Pointing `I` -/

/-- `AddIX` adds to `I` as a number modulo 65536 and advances (R200). -/
theorem exec_addIX (x : Reg) (s : State) : exec (.addIX x) s =
    .next (advancePc { s with i := BitVec.ofNat 16 ((s.i.toNat + (s.reg x).toNat) % 65536) }) := by
  have hsum : BitVec.ofNat 16 ((s.i.toNat + (s.reg x).toNat) % 65536) = s.i + (s.reg x).setWidth 16 := by
    have hbyte := (s.reg x).isLt
    apply BitVec.eq_of_toNat_eq
    rw [BitVec.toNat_ofNat, BitVec.toNat_add, BitVec.toNat_setWidth]
    omega
  rw [hsum]
  rfl

/-- A digit has a sprite address (R51). -/
theorem spriteAddress_of_le {d : Byte} (h : d.toNat ≤ 15) : spriteAddress d = some (BitVec.ofNat 16 (5 * d.toNat)) :=
  if_neg h.not_gt

/-- A byte above 15 has no sprite address (R51). -/
theorem spriteAddress_of_gt {d : Byte} (h : 15 < d.toNat) : spriteAddress d = none := if_pos h

section storeSpriteX
variable {x : Reg} {s : State}

/-- `StoreSpriteX` of a digit points `I` at its sprite and advances (R201). -/
theorem exec_storeSpriteX_of_digit (h : (s.reg x).toNat ≤ 15) :
    exec (.storeSpriteX x) s = .next (advancePc { s with i := BitVec.ofNat 16 (5 * (s.reg x).toNat) }) := by
  rcases execStoreSpriteX_cases x s with ⟨hnone, -⟩ | ⟨a, hsome, he⟩
  · cases hnone.symm.trans (spriteAddress_of_le h)
  · cases hsome.symm.trans (spriteAddress_of_le h)
    exact he

/-- `StoreSpriteX` of a byte above 15 raises (R201). -/
theorem exec_storeSpriteX_of_no_digit (h : 15 < (s.reg x).toNat) :
    exec (.storeSpriteX x) s = .next (raise (.contractViolation .spriteDigit) s) := by
  rcases execStoreSpriteX_cases x s with ⟨-, he⟩ | ⟨a, hsome, -⟩
  · exact he
  · cases hsome.symm.trans (spriteAddress_of_gt h)

end storeSpriteX

/-! ### Storing at `I` -/

/-- Outside the bounds `MemWrite` answers the violation (R52). -/
theorem memWrite_of_outside {m : Memory} {a : Nat} {bs : List Byte} (h : 0xFFF < a ∨ 0x1000 < a + bs.length) :
    memWrite m a bs = none := by
  rcases memWrite_cases m a bs with ⟨ha, hn, -⟩ | ⟨-, hw⟩
  · omega
  · exact hw

/-- Inside the bounds `MemWrite` writes its bytes (R52). -/
theorem memWrite_of_inside {m : Memory} {a : Nat} {bs : List Byte} (ha : a ≤ 0xFFF) (hn : a + bs.length ≤ 0x1000) :
    memWrite m a bs = some (m.writeBytes a bs) := by
  rcases memWrite_cases m a bs with ⟨-, -, hw⟩ | ⟨hout, -⟩
  · exact hw
  · omega

section store
variable {x : Reg} {s : State}

/-- `StoreDecimal` writes its three digits and advances where they fit (R202). -/
theorem exec_storeDecimal_of_inside (h : s.i.toNat ≤ 0xFFD) : exec (.storeDecimal x) s =
    .next (advancePc { s with mem := s.mem.writeBytes s.i.toNat (decimalDigits (s.reg x)) }) := by
  have hwrites : memWrite s.mem s.i.toNat (decimalDigits (s.reg x)) = some _ :=
    memWrite_of_inside (by omega) (Nat.add_le_add_right h 3)
  rcases execStoreDecimal_cases x s with ⟨hnone, -⟩ | ⟨mem, hsome, he⟩
  · cases hnone.symm.trans hwrites
  · cases hsome.symm.trans hwrites
    exact he

/-- `StoreDecimal` raises where its three digits do not fit (R202). -/
theorem exec_storeDecimal_of_outside (h : 0xFFD < s.i.toNat) :
    exec (.storeDecimal x) s = .next (raise (.contractViolation .bounds) s) := by
  rcases execStoreDecimal_cases x s with ⟨-, he⟩ | ⟨mem, hsome, -⟩
  · exact he
  · cases hsome.symm.trans (memWrite_of_outside (.inr (Nat.add_lt_add_right h 3)))

/-- `s` after its bulk store and before the advance: `V[0]` to `V[x]` at `I`, then `I` by the mode (R203, R206). -/
def State.afterBulkStore (s : State) (x : Reg) : State :=
  { s with mem := s.mem.writeBytes s.i.toNat (bulkRegs s x), i := bulkIndex s x }

/-- `WriteToMemory` stores its registers and advances where they fit (R203). -/
theorem exec_writeToMemory_of_inside (h : s.i.toNat + x.val ≤ 0xFFF) :
    exec (.writeToMemory x) s = .next (advancePc (s.afterBulkStore x)) := by
  have hwrites : memWrite s.mem s.i.toNat (bulkRegs s x) = some _ :=
    memWrite_of_inside (by omega) (by rw [bulkRegs_length]; omega)
  rcases execWriteToMemory_cases x s with ⟨hnone, -⟩ | ⟨mem, hsome, he⟩
  · cases hnone.symm.trans hwrites
  · cases hsome.symm.trans hwrites
    exact he

/-- `WriteToMemory` raises where its registers do not fit (R203). -/
theorem exec_writeToMemory_of_outside (h : 0xFFF < s.i.toNat + x.val) :
    exec (.writeToMemory x) s = .next (raise (.contractViolation .bounds) s) := by
  rcases execWriteToMemory_cases x s with ⟨-, he⟩ | ⟨mem, hsome, -⟩
  · exact he
  · cases hsome.symm.trans (memWrite_of_outside (.inr (by rw [bulkRegs_length]; omega)))

/-- A bulk store puts `V[k]` at `I + k` (R203). -/
theorem read_afterBulkStore (hwf : s.mem.wf = true) {k : Nat} (hk : k ≤ x.val) :
    (s.afterBulkStore x).mem.read (s.i.toNat + k) = s.v[k] := by
  have hlen : k < (bulkRegs s x).length := by rw [bulkRegs_length]; omega
  exact (read_writeBytes_inside ((wf_iff s.mem).1 hwf).1 _ _ hlen).trans (bulkRegs_getElem s x hlen _)

end store

/-! ### Loading from `I` -/

section load
variable {x : Reg} {s : State}

/-- `s` after its bulk load and before the advance: `V[0]` to `V[x]` from `I`, then `I` by the mode (R204, R206). -/
def State.afterBulkLoad (s : State) (x : Reg) : State :=
  { s with
    v := loadRegs s.v ((List.range (x.val + 1)).map fun k => s.mem.read (s.i.toNat + k))
    i := bulkIndex s x }

/-- `ReadFromMemory` loads its registers and advances where their bytes are inside memory (R204). -/
theorem exec_readFromMemory_of_inside (h : s.i.toNat + x.val ≤ 0xFFF) :
    exec (.readFromMemory x) s = .next (advancePc (s.afterBulkLoad x)) := by
  have hreads : memRead s.mem s.i.toNat (x.val + 1) = some _ := memRead_of_inside (by omega) (by omega)
  rcases execReadFromMemory_cases x s with ⟨hnone, -⟩ | ⟨bytes, hsome, he⟩
  · cases hnone.symm.trans hreads
  · cases hsome.symm.trans hreads
    exact he

/-- `ReadFromMemory` raises where its bytes are not all inside memory (R204). -/
theorem exec_readFromMemory_of_outside (h : 0xFFF < s.i.toNat + x.val) :
    exec (.readFromMemory x) s = .next (raise (.contractViolation .bounds) s) := by
  rcases execReadFromMemory_cases x s with ⟨-, he⟩ | ⟨bytes, hsome, -⟩
  · exact he
  · cases hsome.symm.trans (memRead_of_outside (.inr (by omega)))

/-- A register after a bulk load: the byte at `I + k`, or its old value above `V[x]` (R204). -/
theorem afterBulkLoad_v_getElem (k : Fin 16) : (s.afterBulkLoad x).v[k.val] =
    if k.val ≤ x.val then s.mem.read (s.i.toNat + k.val) else s.v[k.val] := by
  simp only [State.afterBulkLoad]
  split
  · next hk => simp [loadRegs, List.getD_eq_getElem?_getD, Nat.lt_succ_of_le hk]
  · next hk => exact loadRegs_getElem_of_le s.v (by rw [List.length_map, List.length_range]; omega)

end load

/-! ### `I` after a bulk transfer -/

/-- The model's index after a bulk transfer is the statements' (R206). -/
theorem bulkIndex_eq (s : State) (x : Reg) : bulkIndex s x = indexAfterBulk s x := by
  unfold bulkIndex indexAfterBulk
  cases s.settings.memoryMode with
  | advance =>
    apply BitVec.eq_of_toNat_eq
    rw [BitVec.toNat_ofNat, BitVec.toNat_ofNat, Nat.mod_mod]
  | noAdvance => rfl

/-- Under `NoAdvance` a bulk transfer leaves `I` (R206). -/
theorem bulkIndex_of_noAdvance {s : State} (h : s.settings.memoryMode = .noAdvance) (x : Reg) :
    bulkIndex s x = s.i := by
  rw [bulkIndex, h]

end Sys2Proof.Machine
end

section
/-! PROOFS. The obligations of the index and memory family (47_index_memory.md): each instruction by its bounds, the
store undone by the load, and a digit's sprite read back. -/

namespace Sys2Proof.Machine
open Sys2Proof.Claims

/-- Settles O39: where the three digits fit they are one write of memory, with its two reading rules. -/
theorem storeDecimalWritesThreeDigits : Obligations.StoreDecimalWritesThreeDigits := by
  unfold Obligations.StoreDecimalWritesThreeDigits
  refine fun x s hwf => ⟨exec_storeDecimal_of_outside, fun hin => ?_⟩
  have hvalue := (s.reg x).isLt
  have hdigit {k n : Nat} (hk : k < 3) (hn : n < 256) (h : (decimalDigits (s.reg x))[k] = BitVec.ofNat 8 n) :
      ((s.mem.writeBytes s.i.toNat (decimalDigits (s.reg x))).read (s.i.toNat + k)).toNat = n := by
    rw [read_writeBytes_inside ((wf_iff s.mem).1 hwf).1 _ _ hk, h]
    exact Nat.mod_eq_of_lt hn
  refine ⟨s.mem.writeBytes s.i.toNat (decimalDigits (s.reg x)), ?ends, ?hundreds, ?tens, ?ones, ?frame⟩
  case ends =>
    rw [exec_storeDecimal_of_inside hin]
    exact advances_advancePc rfl
  case hundreds => exact hdigit (k := 0) (by decide) (by omega) rfl
  case tens => exact hdigit (k := 1) (by decide) (by omega) rfl
  case ones => exact hdigit (k := 2) (by decide) (by omega) rfl
  case frame => exact fun a ha => read_writeBytes_outside s.mem _ ha

/-- Settles O40: where the registers fit they are one write of memory, with its two reading rules. -/
theorem writeToMemoryStoresTheRegisters : Obligations.WriteToMemoryStoresTheRegisters := by
  unfold Obligations.WriteToMemoryStoresTheRegisters
  refine fun x s hwf => ⟨exec_writeToMemory_of_outside, fun hin => ?_⟩
  refine ⟨(s.afterBulkStore x).mem, ?ends, fun k hk => read_afterBulkStore hwf hk, fun a ha => ?frame⟩
  case ends =>
    rw [exec_writeToMemory_of_inside hin, ← bulkIndex_eq]
    exact advances_advancePc rfl
  case frame => exact read_writeBytes_outside s.mem _ (by rwa [bulkRegs_length])

/-- Settles O41: by the bounds, and register by register. -/
theorem readFromMemoryLoadsTheRegisters : Obligations.ReadFromMemoryLoadsTheRegisters := by
  unfold Obligations.ReadFromMemoryLoadsTheRegisters
  refine fun x s => ⟨exec_readFromMemory_of_outside, fun hin => ?_⟩
  refine ⟨(s.afterBulkLoad x).v, ?_, afterBulkLoad_v_getElem⟩
  rw [exec_readFromMemory_of_inside hin, ← bulkIndex_eq]
  exact advances_advancePc rfl

/-- Settles O56: a store that leaves the machine running was inside memory, so the load, from the same `I`, is too, and
it reads back what was stored. -/
theorem bulkStoreThenLoadRestores : Obligations.BulkStoreThenLoadRestores := by
  unfold Obligations.BulkStoreThenLoadRestores
  intro x s t u hwf hmode _ ht hrunning hu
  have hin : s.i.toNat + x.val ≤ 0xFFF := by
    by_contra hout
    cases (exec_writeToMemory_of_outside (by omega)).symm.trans ht
    cases hrunning
  cases (exec_writeToMemory_of_inside hin).symm.trans ht
  have hi : (advancePc (s.afterBulkStore x)).i = s.i := (advancePc_i _).trans (bulkIndex_of_noAdvance hmode x)
  cases (exec_readFromMemory_of_inside (by rw [hi]; exact hin)).symm.trans hu
  refine ⟨?registers, ?index, advancePc_mem _⟩
  case registers =>
    rw [advancePc_v]
    refine Vector.ext fun k hk => (afterBulkLoad_v_getElem ⟨k, hk⟩).trans ?_
    rw [hi, advancePc_mem, advancePc_v]
    split
    · next hle => exact read_afterBulkStore hwf hle
    · rfl
  case index =>
    rw [advancePc_i, ← hi]
    exact bulkIndex_of_noAdvance (by rw [advancePc_settings]; exact hmode) x

/-- Settles O57: `StoreSpriteX` points `I` at the digit's sprite in the reset contents, all of it inside memory. -/
theorem digitSpriteIsReadBack : Obligations.DigitSpriteIsReadBack := by
  unfold Obligations.DigitSpriteIsReadBack
  intro settings devices font x d s t u hs ht hu r
  have hdigit : (s.reg x).toNat = d.val := by
    rw [hs, reg_setReg, if_pos rfl, BitVec.toNat_ofNat]
    omega
  obtain ⟨hi, hmem⟩ : t.i.toNat = 5 * d.val ∧ t.mem = (State.resetWith settings devices font).mem := by
    cases (exec_storeSpriteX_of_digit (by omega)).symm.trans ht
    refine ⟨?_, (advancePc_mem _).trans (by rw [hs]; rfl)⟩
    rw [advancePc_i, BitVec.toNat_ofNat, hdigit]
    omega
  have hin : t.i.toNat + 4 ≤ 0xFFF := by omega
  cases (exec_readFromMemory_of_inside (x := 4) hin).symm.trans hu
  calc (advancePc (t.afterBulkLoad 4)).v[r.val]
      = (t.afterBulkLoad 4).v[r.val] := by rw [advancePc_v]
    _ = t.mem.read (t.i.toNat + r.val) :=
        (afterBulkLoad_v_getElem ⟨r.val, by omega⟩).trans (if_pos (Nat.le_of_lt_succ r.isLt))
    _ = (State.resetWith settings devices font).mem.read (5 * d.val + r.val) := by rw [hi, hmem]
    _ = font[d.val][r.val] := base_digit _ d r

/-- Settles O38: `AddIX` has no check, and `StoreSpriteX` goes by whether its byte is a digit. -/
theorem indexInstructionsSetI : Obligations.IndexInstructionsSetI := by
  unfold Obligations.IndexInstructionsSetI
  refine fun x => ⟨fun s => ?addIX, fun s => ⟨fun hdigit => ?digit, exec_storeSpriteX_of_no_digit⟩⟩
  case addIX =>
    rw [exec_addIX]
    exact advances_advancePc rfl
  case digit =>
    rw [exec_storeSpriteX_of_digit hdigit]
    exact advances_advancePc rfl

end Sys2Proof.Machine
end

section
/-! PROOFS. The keypad and timer instructions (48_keypad_timers.md): what each answer of the key port makes of a key skip
and of a key wait, and that the answer to a held machine keeps the invariant. -/

namespace Sys2Proof.Machine
open Sys2Proof.Claims

/-! ### The key skips -/

/-- A byte above 15 names no key (R210). -/
theorem keyIndex_of_gt {b : Byte} (h : 15 < b.toNat) : keyIndex b = none := dif_neg (by omega)

/-- A byte that is a key's number names it (R210). -/
theorem keyIndex_of_eq {b : Byte} {k : Fin 16} (h : b.toNat = k.val) : keyIndex b = some k := by
  simp only [keyIndex, h, k.isLt, dite_true]

/-- An answer to a key query is the state of the key at the call, after what the input context has done (R216, R40). -/
theorem keys_of_isPressed {k : Fin 16} {kp : Keypad} {pressed : Bool} (h : (kp.isPressed k).1 = .ok pressed) :
    (kp.isPressed k).2.keys[k.val] = pressed := by
  unfold Keypad.isPressed at h ⊢
  cases hscan : (kp.scans.take Config.keyScan).1 with
  | unchanged => simpa [hscan] using h
  | changed keys => simpa [hscan] using h
  | err => simp [hscan] at h

section skipOnKey
variable {x : Reg} {s : State} {k : Fin 16} (wanted : Bool)

/-- A key skip raises before the port is asked where its byte names no key (R210, R211). -/
theorem skipOnKey_of_no_key (h : 15 < (s.reg x).toNat) :
    skipOnKey wanted x s = raise (.contractViolation .keyIndex) s := by
  rcases skipOnKey_cases wanted x s with ⟨-, he⟩ | ⟨k, hsome, -⟩
  · exact he
  · cases hsome.symm.trans (keyIndex_of_gt h)

/-- A key skip raises where its query fails (R210, R211). -/
theorem skipOnKey_of_err (hk : (s.reg x).toNat = k.val) (h : (s.keypad.isPressed k).1 = .err) :
    skipOnKey wanted x s = raise (.ioError .keyQuery) { s with keypad := (s.keypad.isPressed k).2 } := by
  rcases skipOnKey_cases wanted x s with ⟨hnone, -⟩ | ⟨_, hsome, ⟨-, he⟩ | ⟨_, hok, -⟩⟩
  · cases hnone.symm.trans (keyIndex_of_eq hk)
  · cases hsome.symm.trans (keyIndex_of_eq hk)
    exact he
  · cases hsome.symm.trans (keyIndex_of_eq hk)
    cases hok.symm.trans h

/-- A key skip whose query is answered is the shared skip on the answer (R210, R211). -/
theorem skipOnKey_of_ok {pressed : Bool} (hk : (s.reg x).toNat = k.val) (h : (s.keypad.isPressed k).1 = .ok pressed) :
    skipOnKey wanted x s = skipIf (pressed == wanted) { s with keypad := (s.keypad.isPressed k).2 } := by
  rcases skipOnKey_cases wanted x s with ⟨hnone, -⟩ | ⟨_, hsome, ⟨herr, -⟩ | ⟨_, hok, he⟩⟩
  · cases hnone.symm.trans (keyIndex_of_eq hk)
  · cases hsome.symm.trans (keyIndex_of_eq hk)
    cases herr.symm.trans h
  · cases hsome.symm.trans (keyIndex_of_eq hk)
    cases hok.symm.trans h
    exact he

end skipOnKey

/-! ### The key wait -/

/-- A write of a register keeps a machine settled (R20). -/
theorem settled_setReg {s : State} (h : s.Settled) (x : Reg) (b : Byte) : (s.setReg x b).Settled := h

section waitKeyX
variable {x : Reg} {s : State}

/-- `WaitKeyX` without an answer at once is held, its request registered (R212). -/
theorem exec_waitKeyX_of_waiting (h : s.keypad.blockForKey.1 = .waiting) :
    exec (.waitKeyX x) s = .next { s with keypad := s.keypad.blockForKey.2, status := .held x } := by
  rcases execWaitKeyX_cases x s with ⟨-, he⟩ | ⟨_, hkey, -⟩ | ⟨herr, -⟩
  · exact he
  · cases hkey.symm.trans h
  · cases herr.symm.trans h

/-- `WaitKeyX` that has its key at once completes (R212). -/
theorem exec_waitKeyX_of_key {k : Fin 16} (h : s.keypad.blockForKey.1 = .key k) : exec (.waitKeyX x) s =
    .next (advancePc (({ s with keypad := s.keypad.blockForKey.2.answered, status := .running } : State).setReg x
      (BitVec.ofNat 8 k.val))) := by
  rcases execWaitKeyX_cases x s with ⟨hwait, -⟩ | ⟨_, hkey, he⟩ | ⟨herr, -⟩
  · cases hwait.symm.trans h
  · cases hkey.symm.trans h
    exact he
  · cases herr.symm.trans h

/-- `WaitKeyX` whose port fails at once raises (R212). -/
theorem exec_waitKeyX_of_err (h : s.keypad.blockForKey.1 = .err) : exec (.waitKeyX x) s =
    .next (raise (.ioError .keyWait) { s with keypad := s.keypad.blockForKey.2.answered }) := by
  rcases execWaitKeyX_cases x s with ⟨hwait, -⟩ | ⟨_, hkey, -⟩ | ⟨-, he⟩
  · cases hwait.symm.trans h
  · cases hkey.symm.trans h
  · exact he

/-- A key that a held machine is given completes its `WaitKeyX` (R120, R212). -/
theorem advances_answerKey_key (h : s.status = .held x) (k : Fin 16) :
    Advances s { s with keypad := s.keypad.answered, status := .running, v := putReg s x k.val }
      (.next (s.answerKey (.key k))) := by
  rw [answerKey_held h]
  exact advances_advancePc rfl

/-- A machine in the invariant is settled once its request is answered (R41). -/
theorem settled_answered (h : s.Inv) :
    ({ s with keypad := s.keypad.answered, status := .running } : State).Settled := by
  obtain ⟨hwf, -⟩ := h
  simp only [State.wf, Bool.and_eq_true] at hwf
  obtain ⟨⟨⟨hm, hd⟩, hr⟩, -⟩ := hwf
  exact (settled_iff _).2 ⟨hm, hd, hr, rfl, rfl⟩

/-- The port's answer to a held machine keeps the invariant (R120, R41). -/
theorem inv_settleWait (h : s.Inv) (answer : KeyWait) : (settleWait x answer s).Inv := by
  cases answer with
  | waiting => exact h
  | key k => exact (settled_advancePc (settled_setReg (settled_answered h) x _)).inv
  | err => exact (settled_raise (settled_answered h) (.ioError .keyWait)).inv

end waitKeyX

/-! ### The obligations -/

/-- Settles O16: a held machine by the answer of the port, and any other has no request. -/
theorem heldMachineOnlyAwaitsTheKey : Obligations.HeldMachineOnlyAwaitsTheKey := by
  unfold Obligations.HeldMachineOnlyAwaitsTheKey
  refine ⟨fun s x hs => ⟨fun gas => runGas_held gas hs, ?waiting, ?err, advances_answerKey_key hs⟩,
    fun s answer hs => answerKey_not_held hs answer, fun s answer hinv => ?inv⟩
  case waiting => exact answerKey_held hs .waiting
  case err => exact answerKey_held hs .err
  case inv =>
    cases hs : s.status with
    | held x =>
      rw [answerKey_held hs]
      exact inv_settleWait hinv answer
    | running | halted =>
      rw [answerKey_not_held (by simp [hs])]
      exact hinv

/-- Settles O35: by the number of the key, then by the port's answer. -/
theorem keySkipsFollowTheKeyState : Obligations.KeySkipsFollowTheKeyState := by
  unfold Obligations.KeySkipsFollowTheKeyState
  refine fun x s => ⟨fun hgt => ?noKey, fun k hk => ⟨fun herr => ?err, fun pressed hok => ?ok⟩⟩
  case noKey =>
    exact ⟨congrArg _ (skipOnKey_of_no_key true hgt), congrArg _ (skipOnKey_of_no_key false hgt)⟩
  case err => exact ⟨congrArg _ (skipOnKey_of_err true hk herr), congrArg _ (skipOnKey_of_err false hk herr)⟩
  case ok =>
    have hskips (wanted : Bool) : Skips (pressed == wanted) { s with keypad := (s.keypad.isPressed k).2 }
        (.next (skipOnKey wanted x s)) := by
      rw [skipOnKey_of_ok wanted hk hok]
      exact skips_skipIf _ _
    refine ⟨keys_of_isPressed hok, ?_, ?_⟩
    · rw [← beq_true pressed]
      exact hskips true
    · rw [← beq_false pressed]
      exact hskips false

/-- Settles O36: by what the port has at once; a machine it holds completes as it would have with the key at once. -/
theorem waitKeyHoldsUntilTheAnswer : Obligations.WaitKeyHoldsUntilTheAnswer := by
  unfold Obligations.WaitKeyHoldsUntilTheAnswer
  refine fun x s => ⟨blockForKey_pending _, rfl, fun hwait => ⟨exec_waitKeyX_of_waiting hwait, fun t k ht => ?later⟩,
    exec_waitKeyX_of_err, fun k hkey => ?atOnce⟩
  case later =>
    cases (exec_waitKeyX_of_waiting hwait).symm.trans ht
    exact advances_answerKey_key (s := { s with keypad := s.keypad.blockForKey.2, status := .held x }) rfl k
  case atOnce =>
    rw [exec_waitKeyX_of_key hkey]
    exact advances_advancePc rfl

/-- Settles O37: each of the three is one write and the advance. -/
theorem timerMovesCopyTheTimers : Obligations.TimerMovesCopyTheTimers := by
  unfold Obligations.TimerMovesCopyTheTimers
  refine fun x => ⟨fun s => ?readDelayX, fun s => advances_advancePc rfl, fun s => advances_advancePc rfl⟩
  case readDelayX => exact advances_setReg s x (ofNat_toNat_byte s.dt)

end Sys2Proof.Machine
end

section
/-! PROOFS. The timers and their two sequencers (60_exceptions.md R248 to R251, 70_reset_and_hazards.md R296). -/

namespace Sys2Proof.Machine
open Sys2Proof.Claims

/-! ### The decay tick -/

/-- A timer lowered by one and clamped at 0, as a number (R248). -/
theorem lowered_eq_ofNat (b : Byte) : (if b = 0 then 0 else b - 1) = BitVec.ofNat 8 (b.toNat - 1) := by
  split
  · next h => rw [h]; rfl
  · next h => bv_omega

/-- The decay tick's timers, as numbers (R248). -/
theorem tickTimers_eq_ofNat (s : State) :
    tickTimers s = { s with dt := BitVec.ofNat 8 (s.dt.toNat - 1), st := BitVec.ofNat 8 (s.st.toNat - 1) } := by
  rw [tickTimers_eq, lowered_eq_ofNat, lowered_eq_ofNat]

theorem tickTimers_dt_toNat (s : State) : (tickTimers s).dt.toNat = s.dt.toNat - 1 := by
  have := s.dt.isLt
  rw [tickTimers_eq_ofNat, BitVec.toNat_ofNat]
  omega

theorem tickTimers_st_toNat (s : State) : (tickTimers s).st.toNat = s.st.toNat - 1 := by
  have := s.st.isLt
  rw [tickTimers_eq_ofNat, BitVec.toNat_ofNat]
  omega

/-! ### The sequencer by instruction count -/

section instructionCount
variable {s : State} (hmode : s.settings.timerMode = .instructionCount)
include hmode

/-- The count answers true where it comes to 0 modulo 8 (R249). -/
theorem shouldTick_answer_of_instructionCount : (shouldTick s).1 = decide ((s.tickCount.val + 1) % 8 = 0) := by
  rw [shouldTick_of_instructionCount hmode, queryCount, Bool.eq_iff_iff, beq_iff_eq, decide_eq_true_iff, Fin.ext_iff,
    Fin.val_add]
  rfl

/-- One tick phase counts one query (R249). -/
theorem tickPhase_tickCount_of_instructionCount : (tickPhase s).tickCount.val = (s.tickCount.val + 1) % 8 := by
  have h : (tickPhase s).tickCount = (shouldTick s).2.tickCount := congrArg Prod.fst (tickPhase_sequencer s)
  rw [h, shouldTick_of_instructionCount hmode]
  exact Fin.val_add s.tickCount 1

/-- One tick phase lowers both timers where the count comes round (R248, R249). -/
theorem tickPhase_timers_of_instructionCount :
    (tickPhase s).dt.toNat = s.dt.toNat - (s.tickCount.val + 1) / 8 ∧
      (tickPhase s).st.toNat = s.st.toNat - (s.tickCount.val + 1) / 8 := by
  have hlt := s.tickCount.isLt
  have hanswer := shouldTick_answer_of_instructionCount hmode
  have hquery : (shouldTick s).2.dt = s.dt ∧ (shouldTick s).2.st = s.st := by
    rw [shouldTick_frame]
    exact ⟨rfl, rfl⟩
  obtain ⟨hdt, hst⟩ := hquery
  rcases tickPhase_cases s with ⟨hdue, he⟩ | ⟨hdue, he⟩
  · have hnone : (s.tickCount.val + 1) / 8 = 0 := by
      have := of_decide_eq_false (hanswer.symm.trans hdue)
      omega
    rw [he, hdt, hst, hnone]
    exact ⟨rfl, rfl⟩
  · have hone : (s.tickCount.val + 1) / 8 = 1 := by
      have := of_decide_eq_true (hanswer.symm.trans hdue)
      omega
    rw [he, tickTimers_dt_toNat, tickTimers_st_toNat, hdt, hst, hone]
    exact ⟨rfl, rfl⟩

end instructionCount

/-- Tick phases leave the timer mode (R34). -/
theorem iterate_tickPhase_settings (k : Nat) (s : State) : (tickPhase^[k] s).settings = s.settings := by
  induction k with
  | zero => rfl
  | succ k ih => rw [Function.iterate_succ_apply', tickPhase_settings, ih]

/-- `k` tick phases in instruction-count mode: the count goes on by `k`, and the timers fall each time it comes round
(R249). -/
theorem iterate_tickPhase_of_instructionCount {s : State} (hmode : s.settings.timerMode = .instructionCount) (k : Nat) :
    (tickPhase^[k] s).tickCount.val = (s.tickCount.val + k) % 8 ∧
      (tickPhase^[k] s).dt.toNat = s.dt.toNat - (s.tickCount.val + k) / 8 ∧
      (tickPhase^[k] s).st.toNat = s.st.toNat - (s.tickCount.val + k) / 8 := by
  induction k with
  | zero =>
    have := s.tickCount.isLt
    simp only [Function.iterate_zero, id_eq]
    omega
  | succ k ih =>
    obtain ⟨hcount, hdt, hst⟩ := ih
    have hmode' : (tickPhase^[k] s).settings.timerMode = .instructionCount := by
      rw [iterate_tickPhase_settings, hmode]
    have hcount' := tickPhase_tickCount_of_instructionCount hmode'
    obtain ⟨hdt', hst'⟩ := tickPhase_timers_of_instructionCount hmode'
    rw [Function.iterate_succ_apply', hcount', hdt', hst', hcount, hdt, hst]
    omega

/-! ### The sequencer by wall clock -/

/-- A reading below `LAST_US` gives no tick and keeps the accumulated time (R251). -/
theorem clockAnswer_of_lt {now last : Nat} (acc : Nat) (h : now < last) : clockAnswer now last acc = (false, acc) :=
  if_pos h

section clockAnswer
variable {now last acc : Nat} (hle : last ≤ now)
include hle

/-- Time short of the period accumulates (R250). -/
theorem clockAnswer_of_short (h : acc + (now - last) < 16667) :
    clockAnswer now last acc = (false, acc + (now - last)) :=
  (if_neg hle.not_gt).trans (if_neg h.not_ge)

/-- Time that reaches the period ticks, and the residual is carried (R250). -/
theorem clockAnswer_of_reached (h : 16667 ≤ acc + (now - last)) :
    clockAnswer now last acc = (true, acc + (now - last) - 16667) :=
  (if_neg hle.not_gt).trans (if_pos h)

/-- One query loses no time: its tick, if it gives one, and the residual make up what had been accumulated and what has
elapsed (R250). -/
theorem clockAnswer_loses_no_time :
    (if (clockAnswer now last acc).1 then 1 else 0) * 16667 + (clockAnswer now last acc).2 = acc + (now - last) := by
  rcases Nat.lt_or_ge (acc + (now - last)) 16667 with h | h
  · rw [clockAnswer_of_short hle h, if_neg Bool.false_ne_true, Nat.zero_mul, Nat.zero_add]
  · rw [clockAnswer_of_reached hle h, if_pos rfl, Nat.one_mul, Nat.add_sub_cancel' h]

end clockAnswer

/-- Over readings that never decrease, the last one is not below the first, and no time is lost between them (R296). -/
theorem clockRun_loses_no_time {readings : List Nat} {last : Nat} (acc : Nat)
    (h : (last :: readings).Pairwise (· ≤ ·)) :
    last ≤ (clockRun readings last acc).2.1 ∧
      (clockRun readings last acc).1 * 16667 + (clockRun readings last acc).2.2 =
        acc + ((clockRun readings last acc).2.1 - last) := by
  induction readings generalizing last acc with
  | nil => exact ⟨Nat.le_refl last, by simp only [clockRun]; omega⟩
  | cons now rest ih =>
    obtain ⟨hfirst, hrest⟩ := List.pairwise_cons.1 h
    have hle : last ≤ now := hfirst now List.mem_cons_self
    have hone := clockAnswer_loses_no_time (acc := acc) hle
    obtain ⟨hnow, hmore⟩ := ih (clockAnswer now last acc).2 hrest
    refine ⟨hle.trans hnow, ?_⟩
    simp only [clockRun]
    generalize (if (clockAnswer now last acc).1 then 1 else 0) = tick at hone ⊢
    generalize (clockAnswer now last acc).2 = residual at hone hmore hnow ⊢
    generalize clockRun rest now residual = after at hmore hnow ⊢
    calc (after.1 + tick) * 16667 + after.2.2
        = tick * 16667 + (after.1 * 16667 + after.2.2) := by rw [Nat.add_mul, Nat.add_comm (after.1 * _), Nat.add_assoc]
      _ = acc + (now - last) + (after.2.1 - now) := by rw [hmore, ← Nat.add_assoc, hone]
      _ = acc + (after.2.1 - last) := by omega

/-! ### The obligations -/

/-- Settles O19: one tick phase after another, and the next query answers by the count they leave. -/
theorem countedSequencerTicksEveryEighthQuery : Obligations.CountedSequencerTicksEveryEighthQuery := by
  unfold Obligations.CountedSequencerTicksEveryEighthQuery
  intro s k hmode
  obtain ⟨hcount, hdt, hst⟩ := iterate_tickPhase_of_instructionCount hmode k
  refine ⟨hcount, hdt, hst, ?_⟩
  rw [shouldTick_answer_of_instructionCount (by rw [iterate_tickPhase_settings, hmode]), hcount, Nat.mod_add_mod]

/-- Settles O21: by the list of readings, each query losing no time. -/
theorem wallClockLosesNoTime : Obligations.WallClockLosesNoTime := by
  unfold Obligations.WallClockLosesNoTime
  intro readings last acc h
  obtain ⟨-, hsum⟩ := clockRun_loses_no_time acc h
  exact hsum

/-- Settles O18: each timer's clamped decrement is that of its number. -/
theorem decayTickLowersBothTimers : Obligations.DecayTickLowersBothTimers := by
  unfold Obligations.DecayTickLowersBothTimers
  exact tickTimers_eq_ofNat

/-- Settles O20: the three cases of the answer, on the one reading taken. -/
theorem wallClockSequencerAnswers : Obligations.WallClockSequencerAnswers := by
  unfold Obligations.WallClockSequencerAnswers
  intro s now hmode hnow
  subst hnow
  rw [shouldTick_of_wallClock hmode, queryClock]
  refine ⟨fun hlt => ?backward, fun hle hshort => ?short, fun hle hreached => ?reached⟩
  case backward => rw [clockAnswer_of_lt _ hlt]
  case short => rw [clockAnswer_of_short hle hshort]
  case reached => rw [clockAnswer_of_reached hle hreached]

end Sys2Proof.Machine
end

section
/-! PROOFS. Said once of every instruction: how it leaves a running machine (60_exceptions.md R234, R242). -/

namespace Sys2Proof.Machine
open Sys2Proof.Claims

/-- The ends of an instruction on a running machine: it runs on, `WaitKeyX` holds it, its final advance raises,
or a check or a port does, with nothing written but the devices called (R116, R234, R242). -/
inductive ExecEnds (i : Instr) (s t : State) : Prop
  | runs (ht : t.status = .running)
  | holds (x : Reg) (hi : i = .waitKeyX x) (ht : t.status = .held x)
  | advanceRaises (hi : mayRaise i (.contractViolation .addressRange) = true) (ht : t.status = addressRange)
  | raises (c : Cause) (hi : mayRaise i c = true) (ht : t = raise c { s with display := t.display, keypad := t.keypad })

section execEnds
variable {i : Instr} {s e : State} (he : e.status = .running)
  (hi : mayRaise i (.contractViolation .addressRange) = true)
include he hi

/-- A rule that advances at its end runs on or raises there (R24). -/
theorem execEnds_advancePc : ExecEnds i s (advancePc e) := by
  rcases advancePc_status e with h | h
  · exact .runs (h.trans he)
  · exact .advanceRaises hi h

/-- A rule that skips at its end runs on or raises there (R144). -/
theorem execEnds_skipIf (cond : Bool) : ExecEnds i s (skipIf cond e) := by
  rcases skipIf_cases cond e with ⟨-, -, h⟩ | ⟨-, -, -, h⟩ | ⟨-, -, h⟩ | ⟨-, h⟩ <;> rw [h]
  · exact .runs he
  · exact .advanceRaises hi rfl
  · exact .runs he
  · exact .advanceRaises hi rfl

/-- A key skip raises before anything is written but the keypad, or skips (R210, R211). -/
theorem execEnds_skipOnKey {wanted : Bool} {x : Reg} (hkey : mayRaise i (.contractViolation .keyIndex) = true)
    (hquery : mayRaise i (.ioError .keyQuery) = true) : ExecEnds i e (skipOnKey wanted x e) := by
  rcases skipOnKey_cases wanted x e with ⟨-, h⟩ | ⟨k, -, ⟨-, h⟩ | ⟨_, -, h⟩⟩ <;> rw [h]
  · exact .raises _ hkey rfl
  · exact .raises _ hquery rfl
  · exact execEnds_skipIf (e := { e with keypad := (e.keypad.isPressed k).2 }) he hi _

end execEnds

/-- Every instruction, on a running machine, ends in one of these ways. -/
theorem exec_ends {i : Instr} {s t : State} (hs : s.status = .running) (ht : exec i s = .next t) : ExecEnds i s t := by
  cases i with
  | storeXNN | addXNN | storeXY | or | and | xor | addXY | sub | subReverse | shr | shl | storeINNN | addIX | random
  | readDelayX | setDelayX | setSoundX =>
    cases ht
    exact execEnds_advancePc hs rfl
  | skipEqXNN | skipNeXNN | skipEqXY | skipNeXY =>
    cases ht
    exact execEnds_skipIf hs rfl _
  | skipPressedX | skipNotPressedX =>
    cases ht
    exact execEnds_skipOnKey hs rfl rfl rfl
  | waitKeyX x =>
    rcases execWaitKeyX_cases x s with ⟨-, he⟩ | ⟨_, -, he⟩ | ⟨-, he⟩ <;> cases he.symm.trans ht
    · exact .holds x rfl rfl
    · exact execEnds_advancePc rfl rfl
    · exact .raises _ rfl rfl
  | jump =>
    cases ht
    exact .runs hs
  | callNNN nnn =>
    rcases execCallNNN_cases nnn s with ⟨-, -, he⟩ | ⟨-, he⟩ <;> cases he.symm.trans ht
    · exact .raises _ rfl rfl
    · exact .runs hs
  | ret =>
    rcases execReturn_cases s with ⟨-, -, he⟩ | ⟨-, he⟩ <;> cases he.symm.trans ht
    · exact .raises _ rfl rfl
    · exact execEnds_advancePc hs rfl
  | jumpV0 nnn =>
    rcases execJumpV0_cases nnn s with ⟨-, he⟩ | ⟨_, -, he⟩ <;> cases he.symm.trans ht
    · exact .raises _ rfl rfl
    · exact .runs hs
  | storeSpriteX x =>
    rcases execStoreSpriteX_cases x s with ⟨-, he⟩ | ⟨_, -, he⟩ <;> cases he.symm.trans ht
    · exact .raises _ rfl rfl
    · exact execEnds_advancePc hs rfl
  | storeDecimal x =>
    rcases execStoreDecimal_cases x s with ⟨-, he⟩ | ⟨_, -, he⟩ <;> cases he.symm.trans ht
    · exact .raises _ rfl rfl
    · exact execEnds_advancePc hs rfl
  | writeToMemory x =>
    rcases execWriteToMemory_cases x s with ⟨-, he⟩ | ⟨_, -, he⟩ <;> cases he.symm.trans ht
    · exact .raises _ rfl rfl
    · exact execEnds_advancePc hs rfl
  | readFromMemory x =>
    rcases execReadFromMemory_cases x s with ⟨-, he⟩ | ⟨_, -, he⟩ <;> cases he.symm.trans ht
    · exact .raises _ rfl rfl
    · exact execEnds_advancePc hs rfl
  | clearScreen =>
    rcases execClearScreen_cases s with ⟨-, he⟩ | ⟨-, he⟩ <;> cases he.symm.trans ht
    · exact .raises _ rfl rfl
    · exact execEnds_advancePc hs rfl
  | drawXYN x y n =>
    rcases execDrawXYN_cases x y n s with ⟨-, he⟩ | ⟨_, -, ⟨-, he⟩ | ⟨_, -, he⟩⟩ <;> cases he.symm.trans ht
    · exact .raises _ rfl rfl
    · exact .raises _ rfl rfl
    · exact execEnds_advancePc hs rfl

/-- Settles O45: by the end of the instruction. -/
theorem instructionsRaiseOnlyTheirErrors : Obligations.InstructionsRaiseOnlyTheirErrors := by
  unfold Obligations.InstructionsRaiseOnlyTheirErrors
  intro i s t hs ht
  cases exec_ends hs ht with
  | runs hrunning => exact .inl hrunning
  | holds x hi hheld => exact .inr (.inl ⟨x, hi, hheld⟩)
  | advanceRaises hi hraised => exact .inr (.inr ⟨_, hraised, hi⟩)
  | raises c hi hraised => exact .inr (.inr ⟨c, congrArg State.status hraised, hi⟩)

/-- Settles O46: of the ends that halt, only the final `AddressRange` comes after a write. -/
theorem checksComeBeforeWrites : Obligations.ChecksComeBeforeWrites := by
  unfold Obligations.ChecksComeBeforeWrites
  intro i s t c hs ht hhalted hc
  cases exec_ends hs ht with
  | runs hrunning => cases hrunning.symm.trans hhalted
  | holds x _ hheld => cases hheld.symm.trans hhalted
  | advanceRaises _ hraised =>
    cases hraised.symm.trans hhalted
    exact absurd rfl hc
  | raises _ _ hraised =>
    rw [hraised]
    exact ⟨rfl, rfl, rfl, rfl, rfl, rfl, rfl, rfl⟩

end Sys2Proof.Machine
end

section
/-! PROOFS. Nothing reads `ST` (60_exceptions.md R254): the shared operations and the instructions on a machine with
another `ST`. -/

namespace Sys2Proof.Machine

/-- `s` with another sound timer. -/
def State.withSt (s : State) (b : Byte) : State := { s with st := b }

section withSt
variable (s : State) (b : Byte)

@[simp] theorem withSt_reg (x : Reg) : (s.withSt b).reg x = s.reg x := rfl
@[simp] theorem withSt_i : (s.withSt b).i = s.i := rfl
@[simp] theorem withSt_mem : (s.withSt b).mem = s.mem := rfl
@[simp] theorem withSt_bulkRegs (x : Reg) : bulkRegs (s.withSt b) x = bulkRegs s x := rfl
@[simp] theorem withSt_display : (s.withSt b).display = s.display := rfl
@[simp] theorem withSt_keypad : (s.withSt b).keypad = s.keypad := rfl

theorem advancePc_withSt : advancePc (s.withSt b) = (advancePc s).withSt b := by
  rcases advancePc_cases s with ⟨h, he⟩ | ⟨h, he⟩
  · rw [he, advancePc_of_le (s := s.withSt b) h]; rfl
  · rw [he, advancePc_of_ge (s := s.withSt b) h]; rfl

theorem skipIf_withSt (cond : Bool) : skipIf cond (s.withSt b) = (skipIf cond s).withSt b := by
  unfold skipIf
  rw [advancePc_withSt, advancePc_withSt]
  exact (apply_ite (State.withSt · b) _ _ _).symm

theorem skipOnKey_withSt (wanted : Bool) (x : Reg) :
    skipOnKey wanted x (s.withSt b) = (skipOnKey wanted x s).withSt b := by
  rcases skipOnKey_cases wanted x s with ⟨hkey, he⟩ | ⟨k, hkey, ⟨hasked, he⟩ | ⟨pressed, hasked, he⟩⟩ <;> rw [he]
  · simp only [skipOnKey, withSt_reg, hkey]; rfl
  · simp only [skipOnKey, withSt_reg, withSt_keypad, hkey, hasked]; rfl
  · rw [← skipIf_withSt]
    simp only [skipOnKey, withSt_reg, withSt_keypad, hkey, hasked]; rfl

theorem settleWait_withSt (x : Reg) (answer : KeyWait) :
    settleWait x answer (s.withSt b) = (settleWait x answer s).withSt b := by
  cases answer with
  | waiting | err => rfl
  | key k =>
    simp only [settleWait]
    rw [← advancePc_withSt]
    rfl

end withSt

/-- An instruction that does not set `ST` does the same with another `ST`, and leaves that one (R254). -/
theorem exec_withSt {i : Instr} {s t : State} (hi : ∀ x, i ≠ .setSoundX x) (b : Byte) (ht : exec i s = .next t) :
    exec i (s.withSt b) = .next (t.withSt b) := by
  cases i with
  | setSoundX x => exact absurd rfl (hi x)
  | storeXNN | addXNN | storeXY | or | and | xor | addXY | sub | subReverse | shr | shl | storeINNN | addIX | random
  | readDelayX | setDelayX =>
    cases ht
    rw [← advancePc_withSt]; rfl
  | skipEqXNN | skipNeXNN | skipEqXY | skipNeXY =>
    cases ht
    rw [← skipIf_withSt]; rfl
  | skipPressedX | skipNotPressedX =>
    cases ht
    rw [← skipOnKey_withSt]; rfl
  | waitKeyX =>
    cases ht
    rw [← settleWait_withSt]; rfl
  | jump =>
    cases ht
    rfl
  | callNNN nnn =>
    rcases execCallNNN_cases nnn s with ⟨hsp, hfault, he⟩ | ⟨hroom, he⟩ <;> cases he.symm.trans ht
    · exact exec_callNNN_of_full (s := s.withSt b) nnn hsp hfault
    · exact congrArg Host.Outcome.next (if_neg hroom)
  | ret =>
    rcases execReturn_cases s with ⟨hsp, hfault, he⟩ | ⟨hentry, he⟩ <;> cases he.symm.trans ht
    · exact exec_ret_of_empty (s := s.withSt b) hsp hfault
    · rw [← advancePc_withSt]
      exact congrArg Host.Outcome.next (if_neg hentry)
  | jumpV0 nnn =>
    cases ht
    simp only [exec, execJumpV0, withSt_reg]
    cases jumpTarget nnn (s.reg 0) <;> rfl
  | storeSpriteX x =>
    cases ht
    simp only [exec, execStoreSpriteX, withSt_reg]
    cases spriteAddress (s.reg x) with
    | none => rfl
    | some a => rw [← advancePc_withSt]; rfl
  | storeDecimal x =>
    cases ht
    simp only [exec, execStoreDecimal, withSt_reg, withSt_i, withSt_mem]
    cases memWrite s.mem s.i.toNat (decimalDigits (s.reg x)) with
    | none => rfl
    | some mem => rw [← advancePc_withSt]; rfl
  | writeToMemory x =>
    cases ht
    simp only [exec, execWriteToMemory, withSt_bulkRegs, withSt_i, withSt_mem]
    cases memWrite s.mem s.i.toNat (bulkRegs s x) with
    | none => rfl
    | some mem => rw [← advancePc_withSt]; rfl
  | readFromMemory x =>
    cases ht
    simp only [exec, execReadFromMemory, withSt_i, withSt_mem]
    cases memRead s.mem s.i.toNat (x.val + 1) with
    | none => rfl
    | some bytes => rw [← advancePc_withSt]; rfl
  | clearScreen =>
    cases ht
    simp only [exec, execClearScreen, withSt_display]
    cases s.display.clear.1 with
    | err => rfl
    | ok _ => rw [← advancePc_withSt]; rfl
  | drawXYN x y n =>
    rcases execDrawXYN_cases x y n s with ⟨hrows, he⟩ | ⟨_, hrows, ⟨hdrawn, he⟩ | ⟨_, hdrawn, he⟩⟩ <;>
      cases he.symm.trans ht
    · exact exec_drawXYN_of_no_rows (s := s.withSt b) hrows
    · exact exec_drawXYN_of_err (s := s.withSt b) hrows hdrawn
    · rw [← advancePc_withSt]
      exact exec_drawXYN_of_ok (s := s.withSt b) hrows hdrawn

/-- Settles O48: `SetSoundX` overwrites `ST`, and every other instruction leaves the other `ST` as it is. -/
theorem nothingReadsTheSoundTimer : Obligations.NothingReadsTheSoundTimer := by
  unfold Obligations.NothingReadsTheSoundTimer
  intro i s t b ht
  by_cases hi : ∃ x, i = .setSoundX x
  · obtain ⟨x, rfl⟩ := hi
    exact ⟨t.st, ht⟩
  · exact ⟨b, exec_withSt (fun x hx => hi ⟨x, hx⟩) b ht⟩

end Sys2Proof.Machine
end

section
/-! PROOFS. Reset and load (70_reset_and_hazards.md R282, R287, R288): the state of the table, the two failures of a
load, and the invariant. -/

namespace Sys2Proof.Machine

/-! ### Reset -/

/-- A reference display of positive size is in shape after reset (R6, R282). -/
theorem display_atReset_wf {d : Display} (h : ∀ r, d = .reference r → 0 < r.width ∧ 0 < r.height) :
    d.atReset.wf = true := by
  cases d with
  | reference r => exact blank_wf (h r rfl).1 (h r rfl).2
  | live d => rfl

/-- A reference random device is inside its sequence after reset (R282). -/
theorem random_atReset_wf (r : RandomSource) : r.atReset.wf = true := by
  cases r with
  | reference r => exact decide_eq_true (p := 0 < r.seq.length) (Nat.succ_pos _)
  | live bytes => rfl

section resetWith
variable (settings : Settings) (devices : Devices) (font : Font)

/-- After reset every general register is 0 (R282). -/
theorem resetWith_reg (x : Reg) : (State.resetWith settings devices font).reg x = 0 := Vector.getElem_replicate _

/-- After reset every stack entry is 0 (R282). -/
theorem resetWith_stack (k : Fin 16) : (State.resetWith settings devices font).stack[k.val] = 0 :=
  Vector.getElem_replicate _

/-- In wall-clock mode `LAST_US` after reset is the clock's reading (R282, R257). -/
theorem resetWith_lastUs (h : settings.timerMode = .wallClock) :
    (State.resetWith settings devices font).lastUs = (nowUs devices.clock).1 := by
  simp only [State.resetWith, h]

/-- The state after reset is settled, for every display of positive size (R282). -/
theorem settled_resetWith (h : ∀ d, devices.display = .reference d → 0 < d.width ∧ 0 < d.height) :
    (State.resetWith settings devices font).Settled :=
  (settled_iff _).2 ⟨rfl, display_atReset_wf h, random_atReset_wf _, rfl, rfl⟩

end resetWith

/-! ### Load -/

/-- A load, of any ROM or failed, keeps a machine settled (R287, R288). -/
theorem settled_load {s : State} (h : s.Settled) (rom : Reply (List Byte)) : (s.load rom).Settled := by
  rcases load_cases rom s with ⟨bytes, -, hlen, he⟩ | ⟨bytes, -, -, he⟩ | ⟨-, he⟩ <;> rw [he]
  · exact settled_mem h (writeBytes_wf h.mem_wf (by omega))
  · exact settled_raise h _
  · have hlen := List.length_take_le 0xE00 Config.romRemnant
    exact settled_raise (settled_mem h (writeBytes_wf h.mem_wf (by omega))) _

/-- A ROM too long is refused whole (R288). -/
theorem load_of_gt {rom : List Byte} (h : 0xE00 < rom.length) (s : State) :
    s.load (.ok rom) = raise (.contractViolation .romTooLarge) s := if_pos h

/-! ### The obligations -/

/-- Settles O4: reset and load leave a settled machine. -/
theorem resetMeetsTheInvariant : Obligations.ResetMeetsTheInvariant := by
  unfold Obligations.ResetMeetsTheInvariant
  refine ⟨fun settings devices font h => (settled_resetWith settings devices font h).inv, ?host,
    fun s rom hinv hs => (settled_load (settled_of_inv hinv hs) rom).inv,
    fun s rom hlen => ⟨_, load_of_le hlen s⟩⟩
  case host =>
    refine (settled_resetWith hostSettings hostDevices conventionalFont fun d hd => ?_).inv
    cases hd
    decide

/-- Settles O1: row by row of the table. -/
theorem resetLeavesTheStateOfTheTable : Obligations.ResetLeavesTheStateOfTheTable := by
  unfold Obligations.ResetLeavesTheStateOfTheTable
  refine fun settings devices font => ⟨resetWith_reg settings devices font, rfl, rfl, rfl,
    resetWith_stack settings devices font, rfl, rfl, rfl, rfl, rfl, rfl, rfl, rfl, rfl,
    resetWith_lastUs settings devices font, fun d hd => ?display, fun r hr => ?random⟩
  case display => exact ⟨d.clear, congrArg Display.atReset hd, rfl, rfl, pixel_blank d.width d.height⟩
  case random => exact congrArg RandomSource.atReset hr

/-- Settles O3: a failed read has written nothing below 0x200. -/
theorem loadFailuresHaltTheMachine : Obligations.LoadFailuresHaltTheMachine := by
  unfold Obligations.LoadFailuresHaltTheMachine
  exact fun s => ⟨fun rom h => load_of_gt h s, _, rfl, fun a ha => read_writeBytes_outside s.mem _ (.inl ha)⟩

end Sys2Proof.Machine
end
